-- ==== Sys2Proof/Word.lean ====
section
/-! DEFINITION. The widths of the machine: bytes, 16-bit words, 12-bit addresses, register indices
(spec/00_scope.md R8 to R10). -/

namespace Sys2Proof

/-- An 8-bit value: a register, a timer, a byte of memory (R8). -/
abbrev Byte := BitVec 8

/-- A 16-bit value: an instruction word, `pc`, `I`, a stack entry (R8). -/
abbrev Word := BitVec 16

/-- The 12-bit field NNN (R72). -/
abbrev Addr12 := BitVec 12

/-- The index of a general register, 0 to 15 (R20, R72). -/
abbrev Reg := Fin 16

/-- The row count N of DXYN, 0 to 15 (R74). -/
abbrev RowCount := Fin 16

end Sys2Proof
end

