-- ==== Sys2Proof/Config.lean ====
section
/-! DEFINITION. What an implementation fixes and what the spec leaves free (spec/00_scope.md R8). -/

namespace Sys2Proof

/-- The two values of the parameter SHIFT_SOURCE (R8, R122; 92_eei_decisions.md D10). -/
inductive ShiftSource where
  /-- the shifts read V[X] -/
  | x
  /-- the shifts read V[Y] -/
  | y
  deriving DecidableEq, Repr

/-- SHIFT_SOURCE at the spec's default, X. DESIGN CHOICE, log 3: unsafe for a machine that shifts V[Y]. -/
def Config.shiftSource : ShiftSource := .x

/-- The random input of R28: the byte that arrives at the `n`-th sampling. A free value without a
body: nothing can be proved of it. DESIGN CHOICE, log 1. -/
opaque Config.randomByte : Nat → Byte

/-- FONT, glyphs 0 to 7 (R53). Log 4. -/
def Config.fontLow : List Byte :=
  [0xF0, 0x90, 0x90, 0x90, 0xF0] ++ [0x20, 0x60, 0x20, 0x20, 0x70] ++
  [0xF0, 0x10, 0xF0, 0x80, 0xF0] ++ [0xF0, 0x10, 0xF0, 0x10, 0xF0] ++
  [0x90, 0x90, 0xF0, 0x10, 0x10] ++ [0xF0, 0x80, 0xF0, 0x10, 0xF0] ++
  [0xF0, 0x80, 0xF0, 0x90, 0xF0] ++ [0xF0, 0x10, 0x20, 0x40, 0x40]

/-- FONT, glyphs 8 to F (R53). Log 4. -/
def Config.fontHigh : List Byte :=
  [0xF0, 0x90, 0xF0, 0x90, 0xF0] ++ [0xF0, 0x90, 0xF0, 0x10, 0xF0] ++
  [0xF0, 0x90, 0xF0, 0x90, 0x90] ++ [0xE0, 0x90, 0xE0, 0x90, 0xE0] ++
  [0xF0, 0x80, 0x80, 0x80, 0xF0] ++ [0xE0, 0x90, 0x90, 0x90, 0xE0] ++
  [0xF0, 0x80, 0xF0, 0x80, 0xF0] ++ [0xF0, 0x80, 0xF0, 0x80, 0x80]

/-- FONT: the 80 bytes at 0x000 to 0x04F after reset (R53). Log 4: unsafe for a machine with
another font. -/
def Config.font : List Byte := Config.fontLow ++ Config.fontHigh

end Sys2Proof
end

