-- ==== Sys2Proof/Syntax.lean ====
section
/-! DEFINITION. The instructions: one constructor per row of spec/opcode_table.json
(spec/30_encoding.md R76). -/

namespace Sys2Proof

/-- The 34 instructions of R76 and the catch-all UNDEF of R94, in the table's order. -/
inductive Instr where
  /-- 00E0 CLS, R140 -/
  | cls
  /-- 00EE RET, R90 -/
  | ret
  /-- 1NNN JP nnn, R91 -/
  | jp (nnn : Addr12)
  /-- 2NNN CALL nnn, R92 -/
  | call (nnn : Addr12)
  /-- 3XNN SE Vx, nn, R101 -/
  | seImm (x : Reg) (nn : Byte)
  /-- 4XNN SNE Vx, nn, R102 -/
  | sneImm (x : Reg) (nn : Byte)
  /-- 5XY0 SE Vx, Vy, R103 -/
  | seReg (x y : Reg)
  /-- 6XNN LD Vx, nn, R110 -/
  | ldImm (x : Reg) (nn : Byte)
  /-- 7XNN ADD Vx, nn, R111 -/
  | addImm (x : Reg) (nn : Byte)
  /-- 8XY0 LD Vx, Vy, R116 -/
  | ldReg (x y : Reg)
  /-- 8XY1 OR Vx, Vy, R117 -/
  | or (x y : Reg)
  /-- 8XY2 AND Vx, Vy, R118 -/
  | and (x y : Reg)
  /-- 8XY3 XOR Vx, Vy, R119 -/
  | xor (x y : Reg)
  /-- 8XY4 ADD Vx, Vy, R120 -/
  | addReg (x y : Reg)
  /-- 8XY5 SUB Vx, Vy, R121 -/
  | sub (x y : Reg)
  /-- 8XY6 SHR Vx, R122; `y` is encoded and, under SHIFT_SOURCE = X, ignored; written with one operand, `y` is 0 (R80) -/
  | shr (x y : Reg)
  /-- 8XY7 SUBN Vx, Vy, R123 -/
  | subn (x y : Reg)
  /-- 8XYE SHL Vx, R124; `y` as for SHR -/
  | shl (x y : Reg)
  /-- 9XY0 SNE Vx, Vy, R104 -/
  | sneReg (x y : Reg)
  /-- ANNN LD I, nnn, R130 -/
  | ldI (nnn : Addr12)
  /-- BNNN JP V0, nnn, R93 -/
  | jpV0 (nnn : Addr12)
  /-- CXNN RND Vx, nn, R112 -/
  | rnd (x : Reg) (nn : Byte)
  /-- DXYN DRW Vx, Vy, n, R142 -/
  | drw (x y : Reg) (n : RowCount)
  /-- EX9E SKP Vx, R105 -/
  | skp (x : Reg)
  /-- EXA1 SKNP Vx, R106 -/
  | sknp (x : Reg)
  /-- FX07 LD Vx, DT, R150 -/
  | ldVxDt (x : Reg)
  /-- FX0A LD Vx, K, R151 -/
  | ldVxK (x : Reg)
  /-- FX15 LD DT, Vx, R152 -/
  | ldDtVx (x : Reg)
  /-- FX18 LD ST, Vx, R153 -/
  | ldStVx (x : Reg)
  /-- FX1E ADD I, Vx, R131 -/
  | addIVx (x : Reg)
  /-- FX29 LD F, Vx, R132 -/
  | ldFVx (x : Reg)
  /-- FX33 LD B, Vx, R133 -/
  | ldBVx (x : Reg)
  /-- FX55 LD [I], Vx, R134 -/
  | ldMemVx (x : Reg)
  /-- FX65 LD Vx, [I], R135 -/
  | ldVxMem (x : Reg)
  /-- UNDEF, R94: an unrecognised word, kept so that it can be encoded again -/
  | undef (w : Word)
  deriving DecidableEq, Repr

end Sys2Proof
end

