-- ==== Sys2Proof/WellFormed.lean ====
section
/-! DEFINITION. Which terms of `Instr` are instructions of the machine. Operand ranges are carried by
the operand types; the one check left is that UNDEF holds an unrecognised word
(spec/30_encoding.md R77). -/

namespace Sys2Proof

/-- The unrecognised words, family by family as the table of R77 lists them. -/
def unrecognised (w : Word) : Bool :=
  let n := w.extractLsb' 0 4
  let nn := w.extractLsb' 0 8
  match (w.extractLsb' 12 4).toNat with
  | 0x0 => w != 0x00E0 && w != 0x00EE
  | 0x5 => n != 0
  | 0x8 => n == 8 || n == 9 || n == 0xA || n == 0xB || n == 0xC || n == 0xD || n == 0xF
  | 0x9 => n != 0
  | 0xE => nn != 0x9E && nn != 0xA1
  | 0xF => nn != 0x07 && nn != 0x0A && nn != 0x15 && nn != 0x18 && nn != 0x1E && nn != 0x29 &&
      nn != 0x33 && nn != 0x55 && nn != 0x65
  | _ => false

/-- A well-formed instruction: every term, but UNDEF only with an unrecognised word. -/
def Instr.wf : Instr → Bool
  | .undef w => unrecognised w
  | _ => true

end Sys2Proof
end

