-- ==== Sys2Proof/Decode.lean ====
section
/-! DEFINITION. The decoder, the opcode map it reads, and the encoder
(spec/30_encoding.md R71 to R77, spec/20_memory.md R54). -/

namespace Sys2Proof

/-- X, bits 11:8 (R72). -/
def fieldX (w : Word) : Reg := (w.extractLsb' 8 4).toFin

/-- Y, bits 7:4 (R72). -/
def fieldY (w : Word) : Reg := (w.extractLsb' 4 4).toFin

/-- N, bits 3:0 (R72). -/
def fieldN (w : Word) : RowCount := (w.extractLsb' 0 4).toFin

/-- NN, bits 7:0 (R72). -/
def fieldNN (w : Word) : Byte := w.extractLsb' 0 8

/-- NNN, bits 11:0 (R72). -/
def fieldNNN (w : Word) : Addr12 := w.extractLsb' 0 12

/-- A row of the opcode map: a word `w` is the instruction iff `w and mask = pattern` (R76). -/
structure OpcodeRow where
  mask : Word
  pattern : Word
  /-- the instruction with its operands taken from the word's fields -/
  build : Word → Instr

/-- R76's condition for a word to be the row's instruction. -/
def OpcodeRow.accepts (r : OpcodeRow) (w : Word) : Bool := w &&& r.mask == r.pattern

/-- Formats Z and A of R73. -/
def rowsZA : List OpcodeRow :=
  [ ⟨0xFFFF, 0x00E0, fun _ => .cls⟩,
    ⟨0xFFFF, 0x00EE, fun _ => .ret⟩,
    ⟨0xF000, 0x1000, fun w => .jp (fieldNNN w)⟩,
    ⟨0xF000, 0x2000, fun w => .call (fieldNNN w)⟩,
    ⟨0xF000, 0xA000, fun w => .ldI (fieldNNN w)⟩,
    ⟨0xF000, 0xB000, fun w => .jpV0 (fieldNNN w)⟩ ]

/-- Formats XI and XYN of R73. -/
def rowsXI : List OpcodeRow :=
  [ ⟨0xF000, 0x3000, fun w => .seImm (fieldX w) (fieldNN w)⟩,
    ⟨0xF000, 0x4000, fun w => .sneImm (fieldX w) (fieldNN w)⟩,
    ⟨0xF000, 0x6000, fun w => .ldImm (fieldX w) (fieldNN w)⟩,
    ⟨0xF000, 0x7000, fun w => .addImm (fieldX w) (fieldNN w)⟩,
    ⟨0xF000, 0xC000, fun w => .rnd (fieldX w) (fieldNN w)⟩,
    ⟨0xF000, 0xD000, fun w => .drw (fieldX w) (fieldY w) (fieldN w)⟩ ]

/-- Format XY of R73. -/
def rowsXY : List OpcodeRow :=
  [ ⟨0xF00F, 0x5000, fun w => .seReg (fieldX w) (fieldY w)⟩,
    ⟨0xF00F, 0x8000, fun w => .ldReg (fieldX w) (fieldY w)⟩,
    ⟨0xF00F, 0x8001, fun w => .or (fieldX w) (fieldY w)⟩,
    ⟨0xF00F, 0x8002, fun w => .and (fieldX w) (fieldY w)⟩,
    ⟨0xF00F, 0x8003, fun w => .xor (fieldX w) (fieldY w)⟩,
    ⟨0xF00F, 0x8004, fun w => .addReg (fieldX w) (fieldY w)⟩,
    ⟨0xF00F, 0x8005, fun w => .sub (fieldX w) (fieldY w)⟩,
    ⟨0xF00F, 0x8006, fun w => .shr (fieldX w) (fieldY w)⟩,
    ⟨0xF00F, 0x8007, fun w => .subn (fieldX w) (fieldY w)⟩,
    ⟨0xF00F, 0x800E, fun w => .shl (fieldX w) (fieldY w)⟩,
    ⟨0xF00F, 0x9000, fun w => .sneReg (fieldX w) (fieldY w)⟩ ]

/-- Format XF of R73. -/
def rowsXF : List OpcodeRow :=
  [ ⟨0xF0FF, 0xE09E, fun w => .skp (fieldX w)⟩,
    ⟨0xF0FF, 0xE0A1, fun w => .sknp (fieldX w)⟩,
    ⟨0xF0FF, 0xF007, fun w => .ldVxDt (fieldX w)⟩,
    ⟨0xF0FF, 0xF00A, fun w => .ldVxK (fieldX w)⟩,
    ⟨0xF0FF, 0xF015, fun w => .ldDtVx (fieldX w)⟩,
    ⟨0xF0FF, 0xF018, fun w => .ldStVx (fieldX w)⟩,
    ⟨0xF0FF, 0xF01E, fun w => .addIVx (fieldX w)⟩,
    ⟨0xF0FF, 0xF029, fun w => .ldFVx (fieldX w)⟩,
    ⟨0xF0FF, 0xF033, fun w => .ldBVx (fieldX w)⟩,
    ⟨0xF0FF, 0xF055, fun w => .ldMemVx (fieldX w)⟩,
    ⟨0xF0FF, 0xF065, fun w => .ldVxMem (fieldX w)⟩ ]

/-- The opcode map of R76, 34 rows. -/
def opcodeMap : List OpcodeRow := rowsZA ++ rowsXI ++ rowsXY ++ rowsXF

/-- The instruction of a word; a word that matches no row is UNDEF (R77). Every word has one, so
this level refuses nothing. -/
def decode (w : Word) : Instr :=
  match opcodeMap.find? (fun r => r.accepts w) with
  | some r => r.build w
  | none => .undef w

/-- Why a sequence of bytes is no instruction. -/
inductive DecodeError where
  /-- fewer than the two bytes every instruction has (R71) -/
  | truncated
  deriving DecidableEq, Repr

/-- The first instruction of a sequence of bytes and the bytes after it; the byte at the lower
address holds bits 15 to 8 (R54). -/
def decodeBytes : List Byte → Except DecodeError (Instr × List Byte)
  | hi :: lo :: rest => .ok (decode (hi ++ lo), rest)
  | _ => .error .truncated

/-- The bytes of a word, in the order the hardware stores them: high byte first (R54). -/
def wordBytes (w : Word) : List Byte := [w.extractLsb' 8 8, w.extractLsb' 0 8]

/-- The first word of an instruction given as the number of its `nbits` low bits, the other bits 0. -/
def tableWord (nbits w : Nat) : Word := BitVec.ofNat 16 (w % 2 ^ nbits)

/-- What the decoder reads from an instruction whose bits are `w`, numbered as spec/opcode_table.json
numbers them. -/
def decodeTableWord (nbits w : Nat) : Option Instr :=
  match decodeBytes (wordBytes (tableWord nbits w)) with
  | .ok (i, _) => some i
  | .error _ => none

/-! The encoder. -/

/-- Format A: family and NNN (R73). -/
def encodeA (family : BitVec 4) (nnn : Addr12) : Word := family ++ nnn

/-- Format XI: family, X, NN (R73). -/
def encodeXI (family : BitVec 4) (x : Reg) (nn : Byte) : Word := family ++ BitVec.ofFin (w := 4) x ++ nn

/-- Formats XY and XYN: family, X, Y, low nibble (R73). -/
def encodeXY (family : BitVec 4) (x y : Reg) (n : BitVec 4) : Word :=
  family ++ BitVec.ofFin (w := 4) x ++ BitVec.ofFin (w := 4) y ++ n

/-- The word of an instruction (R73, R76). The shifts keep their `Y` nibble (R80). -/
def encode : Instr → Word
  | .cls => 0x00E0
  | .ret => 0x00EE
  | .jp nnn => encodeA 0x1 nnn
  | .call nnn => encodeA 0x2 nnn
  | .seImm x nn => encodeXI 0x3 x nn
  | .sneImm x nn => encodeXI 0x4 x nn
  | .seReg x y => encodeXY 0x5 x y 0x0
  | .ldImm x nn => encodeXI 0x6 x nn
  | .addImm x nn => encodeXI 0x7 x nn
  | .ldReg x y => encodeXY 0x8 x y 0x0
  | .or x y => encodeXY 0x8 x y 0x1
  | .and x y => encodeXY 0x8 x y 0x2
  | .xor x y => encodeXY 0x8 x y 0x3
  | .addReg x y => encodeXY 0x8 x y 0x4
  | .sub x y => encodeXY 0x8 x y 0x5
  | .shr x y => encodeXY 0x8 x y 0x6
  | .subn x y => encodeXY 0x8 x y 0x7
  | .shl x y => encodeXY 0x8 x y 0xE
  | .sneReg x y => encodeXY 0x9 x y 0x0
  | .ldI nnn => encodeA 0xA nnn
  | .jpV0 nnn => encodeA 0xB nnn
  | .rnd x nn => encodeXI 0xC x nn
  | .drw x y n => encodeXY 0xD x y (BitVec.ofFin (w := 4) n)
  | .skp x => encodeXI 0xE x 0x9E
  | .sknp x => encodeXI 0xE x 0xA1
  | .ldVxDt x => encodeXI 0xF x 0x07
  | .ldVxK x => encodeXI 0xF x 0x0A
  | .ldDtVx x => encodeXI 0xF x 0x15
  | .ldStVx x => encodeXI 0xF x 0x18
  | .addIVx x => encodeXI 0xF x 0x1E
  | .ldFVx x => encodeXI 0xF x 0x29
  | .ldBVx x => encodeXI 0xF x 0x33
  | .ldMemVx x => encodeXI 0xF x 0x55
  | .ldVxMem x => encodeXI 0xF x 0x65
  | .undef w => w

end Sys2Proof
end

