-- ==== Sys2Proof/Machine/State.lean ====
section
/-! DEFINITION. The state of the CORE, its value after reset, and the reasons a step can end otherwise
than in a next state (spec/10_state.md R20 to R34). -/

namespace Sys2Proof.Machine

/-- Main memory MEM (R30): the bytes that differ from the reset contents, addresses strictly rising.
What an unlisted address reads as is `Memory.resetByte`; the canonical form is `Memory.wf`. Log 6. -/
abbrev Memory := List Host.Cell

/-- The display buffer FB (R31): 32 rows of 64 one-bit cells. The cell in column `x` and row `y`, FB[x + 64*y],
is bit `x` of row `y`. Log 6. -/
abbrev Display := Vector (BitVec 64) 32

/-- The five faults of R160. A fault is latched in FAULT by the step that raises it and the machine goes
on to a next state (R161), so none of them is an outcome of `step`: log 2. -/
inductive FaultCause where
  /-- `pc > 0xFFE` at the start of a step -/
  | fetchOutOfRange
  /-- CALL with `SP = 16` -/
  | stackOverflow
  /-- RET with `SP = 0` -/
  | stackUnderflow
  /-- DRW, LD B, LD [I] or LD Vx, [I] with a range that ends above 0xFFF -/
  | dataAddressOutOfRange
  /-- SKP or SKNP with `V[X] >= 16` -/
  | keyIndexOutOfRange
  deriving DecidableEq, Repr

/-- The state of the machine: the elements of R32 and the model's own counter of random draws. -/
@[ext]
structure State where
  /-- V[0] to V[15]; V[15] is VF (R20, R21) -/
  v : Vector Byte 16
  /-- the program counter (R22) -/
  pc : Word
  /-- the index register I (R23) -/
  i : Word
  /-- STACK[0] to STACK[15] (R24) -/
  stack : Vector Word 16
  /-- SP, 0 to 16: the number of entries in use (R24) -/
  sp : Fin 17
  /-- DT (R25) -/
  dt : Byte
  /-- ST (R25) -/
  st : Byte
  /-- KEY[0] to KEY[15]; bit `k` is 1 iff key `k` is pressed (R27) -/
  key : BitVec 16
  /-- MEM (R30) -/
  mem : Memory
  /-- FB (R31) -/
  fb : Display
  /-- FAULT, 0 or the code of the latched fault (R26, R160) -/
  fault : BitVec 3
  /-- the model's own, not the spec's: how many random bytes have been sampled (log 1) -/
  draws : Nat
  deriving DecidableEq, Repr

/-- The reasons `step` may answer `fault`. There are none: every fault of this machine is latched in FAULT
and its step answers a next state (R161, R162; log 2), so the type is empty. Safe: no behaviour is left out. -/
inductive Fault
  deriving DecidableEq, Repr

/-- The reasons an answer is `refused`. -/
inductive Refusal where
  /-- an arm of `exec` whose instruction has no meaning yet; no arm raises it. Safe. -/
  | notModelled (mnemonic : String)
  /-- raised by the host's transaction `load` alone, for an image of `length` > 3584 bytes: "the load is refused"
  (R192). Safe: it is the spec's own outcome, and no step raises it. -/
  | imageTooLong (length : Nat)
  deriving DecidableEq, Repr

/-- The machine right after `reset` (R34, R190); memory lists nothing, so it reads as the font and zeros. -/
def State.reset : State where
  v := Vector.replicate 16 0
  pc := 0x0200
  i := 0
  stack := Vector.replicate 16 0
  sp := 0
  dt := 0
  st := 0
  key := 0
  mem := []
  fb := Vector.replicate 32 0
  fault := 0
  draws := 0

end Sys2Proof.Machine
end

