-- ==== Sys2Proof/Machine/Ops.lean ====
section
/-! DEFINITION. The named operations over memory, registers, stack and display, the fetch, and the taking
of a fault (spec/20_memory.md, spec/40_control_flow.md, spec/60_exceptions.md). -/

namespace Sys2Proof.Machine

/-! ## Memory (20_memory.md) -/

/-- What an address nothing has written reads as: the font in the first 80 bytes, 0x00 above
(R51, R53, R34). -/
def Memory.resetByte (a : Nat) : Byte := Config.font.getD a 0

/-- The canonical form: addresses strictly rising, inside 0 to 0xFFF, and no entry equal to what an unlisted
address reads as. -/
abbrev Memory.wf (m : Memory) : Prop :=
  m.Pairwise (fun c d => c.1 < d.1) ∧ ∀ c ∈ m, c.1 ≤ 0xFFF ∧ c.2 ≠ Memory.resetByte c.1

/-- `MemRead(a, 1)` of R11; its callers have checked `a <= 0xFFF` (R56). -/
def Memory.read (m : Memory) (a : Nat) : Byte := (m.lookup a).getD (Memory.resetByte a)

/-- The memory without an entry for `a`. -/
def Memory.forget (m : Memory) (a : Nat) : Memory := m.filter (fun c => c.1 != a)

/-- The memory with an entry put where its address belongs. -/
def Memory.place : Memory → Nat → Byte → Memory
  | [], a, b => [(a, b)]
  | c :: m, a, b => if a < c.1 then (a, b) :: c :: m else c :: Memory.place m a b

/-- `MemWrite(a, 1, b)` of R11. Its callers have checked `a <= 0xFFF` (R56); beyond it there is no byte
to write (log 6). -/
def Memory.write (m : Memory) (a : Nat) (b : Byte) : Memory :=
  if 0xFFF < a then m
  else if b = Memory.resetByte a then Memory.forget m a
  else Memory.place (Memory.forget m a) a b

/-- The `n` bytes at `a`, `a + 1`, and so on (R55). -/
def Memory.readBytes (m : Memory) (a : Nat) : Nat → List Byte
  | 0 => []
  | n + 1 => Memory.read m a :: Memory.readBytes m (a + 1) n

/-- The bytes written to `a`, `a + 1`, and so on, in that order (R55). -/
def Memory.writeBytes (m : Memory) (a : Nat) : List Byte → Memory
  | [] => m
  | b :: bs => Memory.writeBytes (Memory.write m a b) (a + 1) bs

/-! ## Registers (10_state.md) -/

/-- Register 0xF in its role as flag output (R21). -/
def vf : Reg := 15

/-- `V[x]` (R20). -/
abbrev State.reg (s : State) (x : Reg) : Byte := s.v[x]

/-- `V[x] <- b` (R20). -/
def State.setReg (s : State) (x : Reg) (b : Byte) : State := { s with v := s.v.set x b }

/-- `pc <- a` (R22). -/
def State.setPc (s : State) (a : Word) : State := { s with pc := a }

/-- `pc <- pc + 2`, modulo 65536 (R78). -/
def State.advance (s : State) : State := s.setPc (s.pc + 2)

/-- `pc <- pc + 4` when the condition holds and `pc <- pc + 2` when it does not (R100). -/
def State.skipIf (s : State) (c : Bool) : State := s.setPc (s.pc + if c then 4 else 2)

/-- `I <- a` (R23). -/
def State.setI (s : State) (a : Word) : State := { s with i := a }

/-- `DT <- b` (R25). -/
def State.setDt (s : State) (b : Byte) : State := { s with dt := b }

/-- `ST <- b` (R25). -/
def State.setSt (s : State) (b : Byte) : State := { s with st := b }

/-- `MEM <- m`. -/
def State.setMem (s : State) (m : Memory) : State := { s with mem := m }

/-- `FB <- d` (R31). -/
def State.setFb (s : State) (d : Display) : State := { s with fb := d }

/-! ## The call stack (10_state.md R24) -/

/-- `STACK[SP] <- a; SP <- SP + 1`, or nothing when `SP = 16` (R92). -/
def State.push (s : State) (a : Word) : Option State :=
  if h : s.sp.val < 16 then
    some { s with stack := s.stack.set s.sp.val a, sp := ⟨s.sp.val + 1, by omega⟩ }
  else none

/-- `SP <- SP - 1` and the entry just vacated, which keeps its value; nothing when `SP = 0` (R90). -/
def State.pop (s : State) : Option (Word × State) :=
  if h : s.sp.val = 0 then none
  else some (s.stack[s.sp.val - 1], { s with sp := ⟨s.sp.val - 1, by omega⟩ })

/-! ## The display buffer (10_state.md R31, 20_memory.md R63) -/

/-- The cell in column `x` and row `y`: FB[x + 64*y]. -/
def Display.pixel (d : Display) (x : Fin 64) (y : Fin 32) : Bool := d[y].getLsbD x.val

/-- `FB[x + 64*y] <- FB[x + 64*y] xor 1`. -/
def Display.toggle (d : Display) (x : Fin 64) (y : Fin 32) : Display :=
  d.set y (d[y] ^^^ ((1 : BitVec 64) <<< x.val))

/-- Every cell 0 (R140). -/
def Display.blank : Display := Vector.replicate 32 0

/-! ## The random input (10_state.md R28, R29) -/

/-- `rand()`: the value of the random input for the current step. A free value, log 1. -/
def State.rand (s : State) : Byte := Config.randomByte s.draws

/-- The random input has been sampled once. -/
def State.drawn (s : State) : State := { s with draws := s.draws + 1 }

/-! ## Faults (60_exceptions.md) -/

/-- The code latched in FAULT (R160). -/
def FaultCause.code : FaultCause → BitVec 3
  | .fetchOutOfRange => 1
  | .stackOverflow => 2
  | .stackUnderflow => 3
  | .dataAddressOutOfRange => 4
  | .keyIndexOutOfRange => 5

/-- `raise c`: the step ends, `FAULT <- code`, nothing else is written (R161). There is no handler and no
return from a fault (R163). -/
def raise (c : FaultCause) (s : State) : Host.Outcome State Fault Refusal :=
  .next { s with fault := c.code }

/-- The machine is halted: FAULT is not 0 (R162). -/
def State.halted (s : State) : Bool := s.fault != 0

/-! ## The fetch (30_encoding.md R70, 20_memory.md R54, R56) -/

/-- Both fetch bytes exist: not `pc > 0xFFE`. -/
def State.fetchInRange (s : State) : Bool := s.pc.toNat ≤ 0xFFE

/-- `MemRead(pc, 1) ++ MemRead(pc + 1, 1)`: the byte at the lower address holds bits 15 to 8. -/
def State.fetchWord (s : State) : Word := s.mem.read s.pc.toNat ++ s.mem.read (s.pc.toNat + 1)

end Sys2Proof.Machine
end

