-- ==== Sys2Proof/Machine/Flags.lean ====
section
/-! DEFINITION. The arithmetic of the register operations and the flag each gives: exact integers first, narrowed
at the end (spec/43_alu.md R120 to R125, spec/10_state.md R21). -/

namespace Sys2Proof.Machine

/-- A flag zero-extended to 8 bits: 0x00 or 0x01 (R21, R115). -/
def flagByte (b : Bool) : Byte := if b then 1 else 0

/-- `(a + b) mod 256` (R111, R120). -/
def sumByte (a b : Byte) : Byte := BitVec.ofNat 8 (a.toNat + b.toNat)

/-- The carry out of `a + b`: 1 iff the sum is above 255 (R120). -/
def carryOut (a b : Byte) : Bool := 255 < a.toNat + b.toNat

/-- `(a - b) mod 256`, that is `a - b + 256` when `a < b` (R121). -/
def differenceByte (a b : Byte) : Byte :=
  BitVec.ofInt 8 ((a.toNat : Int) - (b.toNat : Int))

/-- NOT borrow of `a - b`: 1 iff `a >= b` (R121, R123). -/
def notBorrow (a b : Byte) : Bool := b.toNat ≤ a.toNat

/-- `a / 2`, a logical shift right by one (R122). -/
def halfByte (a : Byte) : Byte := BitVec.ofNat 8 (a.toNat / 2)

/-- The bit a shift right by one shifts out, `a[0]` (R122). -/
def bitOutRight (a : Byte) : Bool := a.getLsbD 0

/-- `(a * 2) mod 256`, a shift left by one (R124). -/
def doubleByte (a : Byte) : Byte := BitVec.ofNat 8 (a.toNat * 2)

/-- The bit a shift left by one shifts out, `a[7]` (R124). -/
def bitOutLeft (a : Byte) : Bool := a.getLsbD 7

/-- The result to `V[x]`, then the flag to VF, then the advance: with `x = 0xF` the flag remains (R115). -/
def State.setResultAndFlag (s : State) (x : Reg) (result : Byte) (flag : Bool) : State :=
  ((s.setReg x result).setReg vf (flagByte flag)).advance

end Sys2Proof.Machine
end

