-- ==== Sys2Proof/Machine/Operands.lean ====
section
/-! DEFINITION. The operand forms: the memory operand through `I`, the register list, the shift source, the key
index, and the immediate NNN (spec/30_encoding.md R74, spec/44_index_memory.md R136). -/

namespace Sys2Proof.Machine

/-- `zext_16(NNN)` (R74). -/
def addressWord (nnn : Addr12) : Word := nnn.zeroExtend 16

/-- The effective address of the `k`-th byte of an access, `I + k` over the integers (R136). -/
def State.effectiveAddress (s : State) (k : Nat) : Nat := s.i.toNat + k

/-- The whole range `I .. I + len - 1` lies inside memory; an empty range does always (R56, R57). -/
def State.dataInRange (s : State) (len : Nat) : Bool :=
  len == 0 || s.effectiveAddress (len - 1) ≤ 0xFFF

/-- An access to `len` bytes from `I` on: the fault comes before the first read or write (R56). -/
def withDataRange (len : Nat) (s : State) (t : State) : Host.Outcome State Fault Refusal :=
  if s.dataInRange len then .next t else raise .dataAddressOutOfRange s

/-- The `len` bytes from `I` on (R136). -/
def State.readAtI (s : State) (len : Nat) : List Byte := s.mem.readBytes (s.effectiveAddress 0) len

/-- The bytes stored from `I` on (R136). -/
def State.writeAtI (s : State) (bs : List Byte) : State :=
  s.setMem (s.mem.writeBytes (s.effectiveAddress 0) bs)

/-- `X + 1`, the number of registers FX55 and FX65 move (R134, R135). -/
abbrev registerCount (x : Reg) : Nat := x.val + 1

/-- `V[0]` to `V[X]`, in that order (R134). -/
def State.registersTo (s : State) (x : Reg) : List Byte := s.v.toList.take (registerCount x)

/-- `V[k]`, `V[k+1]`, and so on are given the bytes of the list, in that order (R135). -/
def loadRegisters (v : Vector Byte 16) (k : Nat) : List Byte → Vector Byte 16
  | [] => v
  | b :: bs => loadRegisters (v.setIfInBounds k b) (k + 1) bs

/-- The value a shift reads: `V[X]` or, under the alternative, `V[Y]` (R122). Under `x` the `Y` nibble "has no effect on the
result" (R80): `exec_shr_ignores_y`, `exec_shl_ignores_y`. -/
def State.shiftOperand (s : State) (src : ShiftSource) (x y : Reg) : Byte :=
  match src with
  | .x => s.reg x
  | .y => s.reg y

/-- `KEY[k] = 1` (R27). -/
abbrev State.keyDown (s : State) (k : Nat) : Bool := s.key.getLsbD k

/-- The least `k` with `KEY[k] = 1`, if any key is down (R151). -/
def State.lowestKey (s : State) : Option Nat := (List.range 16).find? (fun k => s.keyDown k)

/-- The three decimal digits of a byte: hundreds, tens, ones (R133). -/
def decimalDigits (b : Byte) : List Byte :=
  [BitVec.ofNat 8 (b.toNat / 100), BitVec.ofNat 8 (b.toNat / 10 % 10), BitVec.ofNat 8 (b.toNat % 10)]

/-- The address of the font glyph of a digit, `5 * d` (R132). -/
def glyphAddress (d : Byte) : Word := BitVec.ofNat 16 (5 * d.toNat)

end Sys2Proof.Machine
end

