-- ==== Sys2Proof/Machine/Alu.lean ====
section
/-! DEFINITION. The register-to-register operations of family 8 (spec/43_alu.md). Both operands are read before
anything is written (R115). -/

namespace Sys2Proof.Machine

/-- 8XY0 LD Vx, Vy (R116). -/
def execLdReg (x y : Reg) (s : State) : Host.Outcome State Fault Refusal :=
  .next (s.setReg x (s.reg y)).advance

/-- 8XY1 OR Vx, Vy (R117). -/
def execOr (x y : Reg) (s : State) : Host.Outcome State Fault Refusal :=
  .next (s.setReg x (s.reg x ||| s.reg y)).advance

/-- 8XY2 AND Vx, Vy (R118). -/
def execAnd (x y : Reg) (s : State) : Host.Outcome State Fault Refusal :=
  .next (s.setReg x (s.reg x &&& s.reg y)).advance

/-- 8XY3 XOR Vx, Vy (R119). -/
def execXor (x y : Reg) (s : State) : Host.Outcome State Fault Refusal :=
  .next (s.setReg x (s.reg x ^^^ s.reg y)).advance

/-- 8XY4 ADD Vx, Vy (R120): VF = carry. -/
def execAddReg (x y : Reg) (s : State) : Host.Outcome State Fault Refusal :=
  .next (s.setResultAndFlag x (sumByte (s.reg x) (s.reg y)) (carryOut (s.reg x) (s.reg y)))

/-- 8XY5 SUB Vx, Vy (R121): `V[X] - V[Y]`, VF = NOT borrow. -/
def execSub (x y : Reg) (s : State) : Host.Outcome State Fault Refusal :=
  .next (s.setResultAndFlag x (differenceByte (s.reg x) (s.reg y)) (notBorrow (s.reg x) (s.reg y)))

/-- 8XY7 SUBN Vx, Vy (R123): `V[Y] - V[X]`, VF = NOT borrow. -/
def execSubn (x y : Reg) (s : State) : Host.Outcome State Fault Refusal :=
  .next (s.setResultAndFlag x (differenceByte (s.reg y) (s.reg x)) (notBorrow (s.reg y) (s.reg x)))

/-- A shift right by one of the source the parameter names (R122). -/
def shiftRight (src : ShiftSource) (x y : Reg) (s : State) : Host.Outcome State Fault Refusal :=
  .next (s.setResultAndFlag x (halfByte (s.shiftOperand src x y)) (bitOutRight (s.shiftOperand src x y)))

/-- A shift left by one of the source the parameter names (R124). -/
def shiftLeft (src : ShiftSource) (x y : Reg) (s : State) : Host.Outcome State Fault Refusal :=
  .next (s.setResultAndFlag x (doubleByte (s.shiftOperand src x y)) (bitOutLeft (s.shiftOperand src x y)))

/-- 8XY6 SHR Vx (R122). DESIGN CHOICE, log 3: SHIFT_SOURCE at its default. -/
def execShr (x y : Reg) (s : State) : Host.Outcome State Fault Refusal :=
  shiftRight Config.shiftSource x y s

/-- 8XYE SHL Vx (R124). DESIGN CHOICE, log 3: SHIFT_SOURCE at its default. -/
def execShl (x y : Reg) (s : State) : Host.Outcome State Fault Refusal :=
  shiftLeft Config.shiftSource x y s

end Sys2Proof.Machine
end

