-- ==== Sys2Proof/Machine/ControlFlow.lean ====
section
/-! DEFINITION. RET, JP, CALL, JP V0 and the no-op of unrecognised words (spec/40_control_flow.md). -/

namespace Sys2Proof.Machine

/-- 00EE RET (R90). -/
def execRet (s : State) : Host.Outcome State Fault Refusal :=
  match s.pop with
  | some (a, t) => .next (t.setPc a)
  | none => raise .stackUnderflow s

/-- 1NNN JP nnn (R91). -/
def execJp (nnn : Addr12) (s : State) : Host.Outcome State Fault Refusal :=
  .next (s.setPc (addressWord nnn))

/-- 2NNN CALL nnn (R92): pushes the address of the instruction after the call. -/
def execCall (nnn : Addr12) (s : State) : Host.Outcome State Fault Refusal :=
  match s.push (s.pc + 2) with
  | some t => .next (t.setPc (addressWord nnn))
  | none => raise .stackOverflow s

/-- BNNN JP V0, nnn (R93): the 16-bit sum, not reduced to 12 bits. -/
def execJpV0 (nnn : Addr12) (s : State) : Host.Outcome State Fault Refusal :=
  .next (s.setPc (addressWord nnn + (s.reg 0).zeroExtend 16))

/-- UNDEF (R94): the no-op of every unrecognised word. -/
def execUndef (_w : Word) (s : State) : Host.Outcome State Fault Refusal := .next s.advance

end Sys2Proof.Machine
end

