-- ==== Sys2Proof/Machine/Display.lean ====
section
/-! DEFINITION. The display framebuffer controller and the pixel collision detector (spec/45_display.md). -/

namespace Sys2Proof.Machine

/-- The display buffer in the course of one draw, with the collision seen so far (R142: `FB` and `hit`). -/
structure Canvas where
  fb : Display
  hit : Bool
  deriving DecidableEq, Repr

/-- One sprite bit that is 1: a hit iff the cell held 1, then the cell is toggled (R142, R143). -/
def drawPixel (x : Fin 64) (y : Fin 32) (c : Canvas) : Canvas :=
  { fb := Display.toggle c.fb x y, hit := c.hit || Display.pixel c.fb x y }

/-- One sprite row of 8 pixels, bit 7 leftmost, columns modulo 64 (R141, R142). -/
def drawRow (x0 : Nat) (y : Fin 32) (b : Byte) (c : Canvas) : Canvas :=
  (List.range 8).foldl
    (fun c k => if b.getLsbD (7 - k) then drawPixel (Fin.ofNat 64 (x0 + k)) y c else c) c

/-- The sprite rows from row `y` on, rows modulo 32 (R142). -/
def drawRows (x0 : Nat) (y : Nat) : List Byte → Canvas → Canvas
  | [], c => c
  | b :: bs, c => drawRows x0 (y + 1) bs (drawRow x0 (Fin.ofNat 32 y) b c)

/-- The sprite of `n` rows at `I` drawn at (V[X], V[Y]) (R142). -/
def State.drawSprite (s : State) (x y : Reg) (n : RowCount) : Canvas :=
  drawRows (s.reg x).toNat (s.reg y).toNat (s.readAtI n.val) { fb := s.fb, hit := false }

/-- 00E0 CLS (R140). -/
def execCls (s : State) : Host.Outcome State Fault Refusal := .next (s.setFb Display.blank).advance

/-- DXYN DRW Vx, Vy, n (R142): VF is written last. -/
def execDrw (x y : Reg) (n : RowCount) (s : State) : Host.Outcome State Fault Refusal :=
  withDataRange n.val s
    ((s.setFb (s.drawSprite x y n).fb).setReg vf (flagByte (s.drawSprite x y n).hit)).advance

end Sys2Proof.Machine
end

