-- ==== Sys2Proof/Machine/Immediate.lean ====
section
/-! DEFINITION. The register-immediate instructions (spec/42_immediate.md). -/

namespace Sys2Proof.Machine

/-- 6XNN LD Vx, nn (R110). -/
def execLdImm (x : Reg) (nn : Byte) (s : State) : Host.Outcome State Fault Refusal :=
  .next (s.setReg x nn).advance

/-- 7XNN ADD Vx, nn (R111): wrapping, no flag. -/
def execAddImm (x : Reg) (nn : Byte) (s : State) : Host.Outcome State Fault Refusal :=
  .next (s.setReg x (sumByte (s.reg x) nn)).advance

/-- RND with the random byte `r` as an argument (R112). -/
def randomMasked (r : Byte) (x : Reg) (nn : Byte) (s : State) : Host.Outcome State Fault Refusal :=
  .next ((s.setReg x (r &&& nn)).drawn).advance

/-- CXNN RND Vx, nn (R112): `rand()` is sampled once. Free value, log 1. -/
def execRnd (x : Reg) (nn : Byte) (s : State) : Host.Outcome State Fault Refusal :=
  randomMasked s.rand x nn s

end Sys2Proof.Machine
end

