-- ==== Sys2Proof/Machine/IndexMemory.lean ====
section
/-! DEFINITION. The index register and the memory instructions (spec/44_index_memory.md). None but LD I, ADD I and
LD F changes `I` (R136). -/

namespace Sys2Proof.Machine

/-- ANNN LD I, nnn (R130). -/
def execLdI (nnn : Addr12) (s : State) : Host.Outcome State Fault Refusal :=
  .next (s.setI (addressWord nnn)).advance

/-- FX1E ADD I, Vx (R131): wrapping at 16 bits, no flag. -/
def execAddIVx (x : Reg) (s : State) : Host.Outcome State Fault Refusal :=
  .next (s.setI (s.i + (s.reg x).zeroExtend 16)).advance

/-- FX29 LD F, Vx (R132): only if `V[X] < 16`. -/
def execLdFVx (x : Reg) (s : State) : Host.Outcome State Fault Refusal :=
  .next (if (s.reg x).toNat < 16 then (s.setI (glyphAddress (s.reg x))).advance else s.advance)

/-- FX33 LD B, Vx (R133): three decimal digits to MEM[I..I+2]. -/
def execLdBVx (x : Reg) (s : State) : Host.Outcome State Fault Refusal :=
  withDataRange 3 s (s.writeAtI (decimalDigits (s.reg x))).advance

/-- FX55 LD [I], Vx (R134): V[0..X] to MEM[I..I+X]. -/
def execLdMemVx (x : Reg) (s : State) : Host.Outcome State Fault Refusal :=
  withDataRange (registerCount x) s (s.writeAtI (s.registersTo x)).advance

/-- V[0..X] loaded from MEM[I..I+X]. -/
def State.loadFromI (s : State) (x : Reg) : State :=
  { s with v := loadRegisters s.v 0 (s.readAtI (registerCount x)) }

/-- FX65 LD Vx, [I] (R135): MEM[I..I+X] to V[0..X]. -/
def execLdVxMem (x : Reg) (s : State) : Host.Outcome State Fault Refusal :=
  withDataRange (registerCount x) s (s.loadFromI x).advance

end Sys2Proof.Machine
end

