-- ==== Sys2Proof/Machine/Skips.lean ====
section
/-! DEFINITION. The conditional skips (spec/41_skips.md). -/

namespace Sys2Proof.Machine

/-- 3XNN SE Vx, nn (R101). -/
def execSeImm (x : Reg) (nn : Byte) (s : State) : Host.Outcome State Fault Refusal :=
  .next (s.skipIf (s.reg x == nn))

/-- 4XNN SNE Vx, nn (R102). -/
def execSneImm (x : Reg) (nn : Byte) (s : State) : Host.Outcome State Fault Refusal :=
  .next (s.skipIf (s.reg x != nn))

/-- 5XY0 SE Vx, Vy (R103). -/
def execSeReg (x y : Reg) (s : State) : Host.Outcome State Fault Refusal :=
  .next (s.skipIf (s.reg x == s.reg y))

/-- 9XY0 SNE Vx, Vy (R104). -/
def execSneReg (x y : Reg) (s : State) : Host.Outcome State Fault Refusal :=
  .next (s.skipIf (s.reg x != s.reg y))

/-- What SKP and SKNP share: the index check, then the skip if `KEY[V[X]]` has the wanted level (R105, R106). -/
def skipOnKey (wanted : Bool) (x : Reg) (s : State) : Host.Outcome State Fault Refusal :=
  if 15 < (s.reg x).toNat then raise .keyIndexOutOfRange s
  else .next (s.skipIf (s.keyDown (s.reg x).toNat == wanted))

/-- EX9E SKP Vx (R105). -/
def execSkp (x : Reg) (s : State) : Host.Outcome State Fault Refusal := skipOnKey true x s

/-- EXA1 SKNP Vx (R106). -/
def execSknp (x : Reg) (s : State) : Host.Outcome State Fault Refusal := skipOnKey false x s

end Sys2Proof.Machine
end

