-- ==== Sys2Proof/Machine/Step.lean ====
section
/-! DEFINITION. The step of the machine (spec/30_encoding.md R70). -/

namespace Sys2Proof.Machine

/-- One `step` (R70): nothing on a halted machine (R162), the fetch bound (R56), then the instruction of the
fetched word. -/
def step (s : State) : Host.Outcome State Fault Refusal :=
  if s.halted then .next s
  else if s.fetchInRange then exec (decode s.fetchWord) s
  else raise .fetchOutOfRange s

/-- The state with an instruction stored at `pc`, where the next step fetches it (R54); the bits above `nbits` are 0.
A halted machine, or one with `pc > 0xFFE`, fetches nothing whatever is stored (R56, R162). Log 8. -/
def State.withFetchWord (s : State) (nbits w : Nat) : State :=
  s.setMem (s.mem.writeBytes s.pc.toNat (wordBytes (tableWord nbits w)))

end Sys2Proof.Machine
end

