-- ==== Sys2Proof/Machine/Transactions.lean ====
section
/-! DEFINITION. The transactions of the block's interface: what the host does between steps
(spec/10_state.md R33, spec/60_exceptions.md R170 to R174, spec/70_reset_and_hazards.md R190, R192). -/

namespace Sys2Proof.Machine

/-- PROGRAM_BASE (R8). -/
abbrev programBase : Nat := 0x200

/-- MAX_PROGRAM_LEN (R8). -/
abbrev maxProgramLength : Nat := 3584

/-- `reset` (R190): every element of the block to its reset value. The count of random draws is no element of the block
(R28): the source outside is not restarted (log 1). -/
def State.hostReset (s : State) : State := { State.reset with draws := s.draws }

/-- `load(bytes)` (R192): the bytes to 0x200 and on, or a refusal that writes nothing. -/
def load (bytes : List Byte) (s : State) : Host.Outcome State Fault Refusal :=
  if bytes.length ≤ maxProgramLength then .next (s.setMem (s.mem.writeBytes programBase bytes))
  else .refused (.imageTooLong bytes.length)

/-- `set_keys(k)` (R171). -/
def State.setKeys (s : State) (k : BitVec 16) : State := { s with key := k }

/-- The 16 bits a host that stores one byte per key passes: bit `k` is 1 iff byte `k` is nonzero (R171). -/
def keyBits (bytes : Vector Byte 16) : BitVec 16 :=
  BitVec.ofNat 16 (bytes.toList.foldr (fun b n => 2 * n + if b = 0 then 0 else 1) 0)

/-- A timer after one tick: one less, or 0 still (R172). -/
def tickByte (b : Byte) : Byte := if b = 0 then 0 else b - 1

/-- `tick()` (R172): both timers by the same event. -/
def State.tick (s : State) : State := { s with dt := tickByte s.dt, st := tickByte s.st }

/-- `read_display` (R174): the 2048 cells in index order `x + 64*y`. -/
def State.readDisplay (s : State) : List Bool :=
  (List.range 2048).map (fun k => Display.pixel s.fb (Fin.ofNat 64 k) (Fin.ofNat 32 (k / 64)))

/-- `read_timers` (R174). -/
def State.readTimers (s : State) : Byte × Byte := (s.dt, s.st)

/-- `read_fault` (R174). -/
def State.readFault (s : State) : BitVec 3 := s.fault

/-- The eight transactions of R33. -/
inductive Transaction where
  | reset
  | load (bytes : List Byte)
  | step
  | setKeys (k : BitVec 16)
  | tick
  | readDisplay
  | readTimers
  | readFault
  deriving DecidableEq, Repr

/-- What a transaction tells the host. -/
inductive Reply where
  /-- it took effect -/
  | done
  /-- it was refused and changed nothing -/
  | refused (r : Refusal)
  | display (cells : List Bool)
  | timers (dt st : Byte)
  | fault (code : BitVec 3)
  deriving DecidableEq, Repr

/-- The state and the reply after an outcome; a refused transaction leaves the state as it was. -/
def settle (s : State) : Host.Outcome State Fault Refusal → State × Reply
  | .next t => (t, .done)
  | .refused r => (s, .refused r)
  | .fault r => nomatch r

/-- One transaction (R33), legal in every state, halted or not (R162, R170). -/
def transact (t : Transaction) (s : State) : State × Reply :=
  match t with
  | .reset => (s.hostReset, .done)
  | .load bytes => settle s (load bytes s)
  | .step => settle s (step s)
  | .setKeys k => (s.setKeys k, .done)
  | .tick => (s.tick, .done)
  | .readDisplay => (s, .display s.readDisplay)
  | .readTimers => (s, .timers s.dt s.st)
  | .readFault => (s, .fault s.fault)

/-- A run: the transactions one after another (R60, R170). -/
def run : List Transaction → State → State
  | [], s => s
  | t :: ts, s => run ts (transact t s).1

end Sys2Proof.Machine
end

