-- ==== Sys2Proof/Safety.lean ====
section
/-! DEFINITION. What counts as a safe run, the invariant of reachable states, the ends of a run, and the access
matrix: the terms claims are stated in (spec/10_state.md R35, R36; spec/60_exceptions.md R162, R165;
spec/70_reset_and_hazards.md R197). -/

namespace Sys2Proof.Machine

/-! ## Runs -/

/-- The machine runs: FAULT is 0. "a run that faults has gone wrong" (R162). -/
abbrev State.running (s : State) : Prop := s.fault = 0

/-- The run from `s` through the transactions `ts` is safe: FAULT is 0 after each of them (R162). -/
def SafeRun (s : State) (ts : List Transaction) : Prop :=
  ∀ us, us <+: ts → (run us s).running

/-! ## The three ends of a run (R197)

The machine has no halt instruction and never stops by itself; a run ends only in the sense of a claim, at a point where it
is in a state `s` with the transactions `rest` still to come. -/

/-- End (a) of R197: halted by a fault, "never a good end". -/
abbrev State.endedByFault (s : State) : Prop := s.fault ≠ 0

/-- End (b) of R197: the next instruction is a jump to its own address. -/
def State.atSelfJump (s : State) : Prop :=
  s.fault = 0 ∧ s.pc.toNat ≤ 0xFFE ∧ ∃ nnn, decode s.fetchWord = .jp nnn ∧ nnn.zeroExtend 16 = s.pc

/-- End (c) of R197: "The host stops calling `step`": no transaction still to come is a step. It says nothing about the
others, so the timers may tick on. -/
abbrev hostStopsStepping (rest : List Transaction) : Prop := Transaction.step ∉ rest

/-- The three ways a run ends (R197). -/
inductive RunEnd where
  /-- (a) -/
  | fault
  /-- (b), "final in all but name" -/
  | selfJump
  /-- (c) -/
  | hostStops
  deriving DecidableEq, Repr

/-- The run is at this end: in state `s`, with `rest` still to come. -/
def RunEnd.reached (e : RunEnd) (s : State) (rest : List Transaction) : Prop :=
  match e with
  | .fault => s.endedByFault
  | .selfJump => s.atSelfJump
  | .hostStops => hostStopsStepping rest

/-- The run from `s` through `ts` comes to this end somewhere, possibly before its last transaction. -/
def RunEnd.endsRun (e : RunEnd) (s : State) (ts : List Transaction) : Prop :=
  ∃ done rest, ts = done ++ rest ∧ e.reached (run done s) rest

/-! ## The key-wait and the invariant -/

/-- The key-wait of R151 and R196: the next instruction is FX0A and no key is down. -/
def State.waitingForKey (s : State) : Prop :=
  s.fault = 0 ∧ s.pc.toNat ≤ 0xFFE ∧ s.key = 0 ∧ ∃ x, decode s.fetchWord = .ldVxK x

/-- The invariant of R36. That `0 <= SP <= 16` and that every FB cell is 0 or 1 holds by the types. -/
structure State.Inv (s : State) : Prop where
  /-- the memory list is in its canonical form (the model's own clause, log 6) -/
  memoryCanonical : Memory.wf s.mem
  /-- `FAULT` is in 0 to 5 -/
  faultLegal : s.fault.toNat ≤ 5
  /-- "every live stack entry is at most 0x1000" -/
  liveEntries : ∀ k : Fin 16, k.val < s.sp.val → s.stack[k].toNat ≤ 0x1000
  /-- `pc <= 0x10FE` -/
  pcBound : s.pc.toNat ≤ 0x10FE

/-! ## The faults, and the access matrix of R35 -/

/-- The fault an instruction raises in a state (R165, with the conditions of R57, R90, R92, R105). The instructions not
named raise nothing. -/
def instructionFault (i : Instr) (s : State) : Option FaultCause :=
  match i with
  | .call _ => if s.sp.val = 16 then some .stackOverflow else none
  | .ret => if s.sp.val = 0 then some .stackUnderflow else none
  | .drw _ _ n => if 1 ≤ n.val ∧ 0xFFF < s.i.toNat + n.val - 1 then some .dataAddressOutOfRange else none
  | .ldBVx _ => if 0xFFF < s.i.toNat + 2 then some .dataAddressOutOfRange else none
  | .ldMemVx x => if 0xFFF < s.i.toNat + x.val then some .dataAddressOutOfRange else none
  | .ldVxMem x => if 0xFFF < s.i.toNat + x.val then some .dataAddressOutOfRange else none
  | .skp x => if 16 ≤ (s.v[x]).toNat then some .keyIndexOutOfRange else none
  | .sknp x => if 16 ≤ (s.v[x]).toNat then some .keyIndexOutOfRange else none
  | _ => none

/-- The elements of the state an instruction can read or write, arrays cell by cell but FB whole, as R35 lists it. -/
inductive Element where
  | v (r : Reg)
  | pc
  | i
  | stack (k : Fin 16)
  | sp
  | dt
  | st
  | key (k : Fin 16)
  | mem (a : Nat)
  | fb
  | fault
  /-- the random input `rand()`: the model's counter of draws (log 1) -/
  | rand
  deriving DecidableEq, Repr

/-- Two states hold the same in an element. -/
def Element.same (e : Element) (s t : State) : Prop :=
  match e with
  | .v r => s.v[r] = t.v[r]
  | .pc => s.pc = t.pc
  | .i => s.i = t.i
  | .stack k => s.stack[k] = t.stack[k]
  | .sp => s.sp = t.sp
  | .dt => s.dt = t.dt
  | .st => s.st = t.st
  | .key k => s.key.getLsbD k.val = t.key.getLsbD k.val
  | .mem a => s.mem.read a = t.mem.read a
  | .fb => s.fb = t.fb
  | .fault => s.fault = t.fault
  | .rand => s.draws = t.draws

/-- The column "reads" of R35 for a step that does not fault. -/
def instrCompletedReads (i : Instr) (s : State) (e : Element) : Prop :=
  match i with
  | .cls => False
  | .ret => e = .sp ∨ ∃ k : Fin 16, k.val + 1 = s.sp.val ∧ e = .stack k
  | .jp _ => False
  | .call _ => e = .sp
  | .seImm x _ => e = .v x
  | .sneImm x _ => e = .v x
  | .seReg x y => e = .v x ∨ e = .v y
  | .ldImm _ _ => False
  | .addImm x _ => e = .v x
  | .ldReg _ y => e = .v y
  | .or x y => e = .v x ∨ e = .v y
  | .and x y => e = .v x ∨ e = .v y
  | .xor x y => e = .v x ∨ e = .v y
  | .addReg x y => e = .v x ∨ e = .v y
  | .sub x y => e = .v x ∨ e = .v y
  | .shr x _ => e = .v x
  | .subn x y => e = .v x ∨ e = .v y
  | .shl x _ => e = .v x
  | .sneReg x y => e = .v x ∨ e = .v y
  | .ldI _ => False
  | .jpV0 _ => e = .v 0
  | .rnd _ _ => e = .rand
  | .drw x y n => e = .v x ∨ e = .v y ∨ e = .i ∨ e = .fb ∨ ∃ k < n.val, e = .mem (s.i.toNat + k)
  | .skp x => e = .v x ∨ ∃ k : Fin 16, k.val = (s.v[x]).toNat ∧ e = .key k
  | .sknp x => e = .v x ∨ ∃ k : Fin 16, k.val = (s.v[x]).toNat ∧ e = .key k
  | .ldVxDt _ => e = .dt
  | .ldVxK _ => ∃ k, e = .key k
  | .ldDtVx x => e = .v x
  | .ldStVx x => e = .v x
  | .addIVx x => e = .i ∨ e = .v x
  | .ldFVx x => e = .v x
  | .ldBVx x => e = .v x ∨ e = .i
  | .ldMemVx x => e = .i ∨ ∃ r ≤ x, e = .v r
  | .ldVxMem x => e = .i ∨ ∃ k ≤ x.val, e = .mem (s.i.toNat + k)
  | .undef _ => False

/-- The last row of R35, "as its instruction, up to the check": what the check for the instruction's fault reads. -/
def instrCheckReads (i : Instr) (e : Element) : Prop :=
  match i with
  | .ret => e = .sp
  | .call _ => e = .sp
  | .drw _ _ _ => e = .i
  | .ldBVx _ => e = .i
  | .ldMemVx _ => e = .i
  | .ldVxMem _ => e = .i
  | .skp x => e = .v x
  | .sknp x => e = .v x
  | _ => False

/-- The column "reads" of R35, with its last row. -/
def instrReads (i : Instr) (s : State) (e : Element) : Prop :=
  match instructionFault i s with
  | some _ => instrCheckReads i e
  | none => instrCompletedReads i s e

/-- The column "writes" of R35 for a step that does not fault. RND also advances the model's own counter of draws. -/
def instrCompletedWrites (i : Instr) (s : State) (e : Element) : Prop :=
  match i with
  | .cls => e = .fb ∨ e = .pc
  | .ret => e = .sp ∨ e = .pc
  | .jp _ => e = .pc
  | .call _ => (∃ k : Fin 16, k.val = s.sp.val ∧ e = .stack k) ∨ e = .sp ∨ e = .pc
  | .seImm _ _ => e = .pc
  | .sneImm _ _ => e = .pc
  | .seReg _ _ => e = .pc
  | .ldImm x _ => e = .v x ∨ e = .pc
  | .addImm x _ => e = .v x ∨ e = .pc
  | .ldReg x _ => e = .v x ∨ e = .pc
  | .or x _ => e = .v x ∨ e = .pc
  | .and x _ => e = .v x ∨ e = .pc
  | .xor x _ => e = .v x ∨ e = .pc
  | .addReg x _ => e = .v x ∨ e = .v 15 ∨ e = .pc
  | .sub x _ => e = .v x ∨ e = .v 15 ∨ e = .pc
  | .shr x _ => e = .v x ∨ e = .v 15 ∨ e = .pc
  | .subn x _ => e = .v x ∨ e = .v 15 ∨ e = .pc
  | .shl x _ => e = .v x ∨ e = .v 15 ∨ e = .pc
  | .sneReg _ _ => e = .pc
  | .ldI _ => e = .i ∨ e = .pc
  | .jpV0 _ => e = .pc
  | .rnd x _ => e = .v x ∨ e = .pc ∨ e = .rand
  | .drw _ _ _ => e = .fb ∨ e = .v 15 ∨ e = .pc
  | .skp _ => e = .pc
  | .sknp _ => e = .pc
  | .ldVxDt x => e = .v x ∨ e = .pc
  | .ldVxK x => s.key ≠ 0 ∧ (e = .v x ∨ e = .pc)
  | .ldDtVx _ => e = .dt ∨ e = .pc
  | .ldStVx _ => e = .st ∨ e = .pc
  | .addIVx _ => e = .i ∨ e = .pc
  | .ldFVx x => ((s.v[x]).toNat < 16 ∧ e = .i) ∨ e = .pc
  | .ldBVx _ => (∃ k < 3, e = .mem (s.i.toNat + k)) ∨ e = .pc
  | .ldMemVx x => (∃ k ≤ x.val, e = .mem (s.i.toNat + k)) ∨ e = .pc
  | .ldVxMem x => (∃ r ≤ x, e = .v r) ∨ e = .pc
  | .undef _ => e = .pc

/-- The column "writes" of R35, with its last row: a faulting step writes FAULT only. -/
def instrWrites (i : Instr) (s : State) (e : Element) : Prop :=
  match instructionFault i s with
  | some _ => e = .fault
  | none => instrCompletedWrites i s e

/-! ## The sprite of DXYN -/

/-- A sprite bit that is 1 lands on the cell in column `px` and row `py`: row `r` of the sprite is the byte at `I + r`,
pixel `c` of a row is its bit `7 - c`, and the cell is `((V[X] + c) mod 64, (V[Y] + r) mod 32)` (R141, R142). -/
def State.spriteCovers (s : State) (x y : Reg) (n : RowCount) (px : Fin 64) (py : Fin 32) : Bool :=
  (List.range n.val).any fun r => (List.range 8).any fun c =>
    (s.mem.read (s.i.toNat + r)).getLsbD (7 - c) &&
      (((s.v[x]).toNat + c) % 64 == px.val && ((s.v[y]).toNat + r) % 32 == py.val)

/-- The number of 1 bits in the sprite of `n` rows at `I` (R144). -/
def State.spriteBits (s : State) (n : RowCount) : Nat :=
  ((List.range n.val).map fun r =>
    ((List.range 8).filter fun c => (s.mem.read (s.i.toNat + r)).getLsbD (7 - c)).length).sum

/-! ## The opcode map's bits -/

/-- The `(mask, match)` columns of R76, in its order. -/
def specPatterns : List (Word × Word) :=
  [(0xFFFF, 0x00E0), (0xFFFF, 0x00EE), (0xF000, 0x1000), (0xF000, 0x2000), (0xF000, 0x3000), (0xF000, 0x4000)] ++
  [(0xF00F, 0x5000), (0xF000, 0x6000), (0xF000, 0x7000), (0xF00F, 0x8000), (0xF00F, 0x8001), (0xF00F, 0x8002)] ++
  [(0xF00F, 0x8003), (0xF00F, 0x8004), (0xF00F, 0x8005), (0xF00F, 0x8006), (0xF00F, 0x8007), (0xF00F, 0x800E)] ++
  [(0xF00F, 0x9000), (0xF000, 0xA000), (0xF000, 0xB000), (0xF000, 0xC000), (0xF000, 0xD000), (0xF0FF, 0xE09E)] ++
  [(0xF0FF, 0xE0A1), (0xF0FF, 0xF007), (0xF0FF, 0xF00A), (0xF0FF, 0xF015), (0xF0FF, 0xF018), (0xF0FF, 0xF01E)] ++
  [(0xF0FF, 0xF029), (0xF0FF, 0xF033), (0xF0FF, 0xF055), (0xF0FF, 0xF065)]

end Sys2Proof.Machine
end

