-- ==== Sys2Proof/Certificates/Slice0/Obligations.lean ====
section
/-! DEFINITION. The statements for the provers. Each docstring names the rule or the sentence of spec/ it formalises.
An equation `exec i s = .next { s with … }` is at once the instruction's result, its frame (every register, timer, key,
byte of memory, cell and latch not named is as before) and its completion. -/

open Sys2Proof Sys2Proof.Machine

/-! ## Encodings -/

/-- Decoding the encoding of any well-formed instruction, with every operand value, gives it back. Encoder and decoder are
the map of 30_encoding.md section 3, three sub-opcodes and the timer words of which are the spec's general knowledge (its
decisions D12, D13). -/
def Obligations.DecodeOfEncodeIsIdentity : Prop :=
  ∀ i : Instr, i.wf = true → decode (encode i) = i

/-- Every word decodes to a well-formed instruction whose encoding is that word: no bit is dropped and the two never
disagree (the map as above, D12 and D13, and the unrecognised words by the spec's decision D14). -/
def Obligations.EncodeOfDecodeIsIdentity : Prop :=
  ∀ w : Word, (decode w).wf = true ∧ encode (decode w) = w

/-- 30_encoding.md sections 3 and 4: a word matches at most one of the 34 patterns, and the unrecognised words are, family by
family, those of the table there (the spec's decision D14; which sub-opcodes of family 8 are instructions also rests on
its general knowledge, its decision D12). -/
def Obligations.UnrecognisedWordsAreTheListedOnes : Prop :=
  (∀ w : Word, (specPatterns.filter (fun p => w &&& p.1 == p.2)).length ≤ 1) ∧
  ∀ w : Word, decode w = .undef w ↔
    (w.toNat / 4096 = 0x0 ∧ w ≠ 0x00E0 ∧ w ≠ 0x00EE) ∨
    (w.toNat / 4096 = 0x5 ∧ w.toNat % 16 ≠ 0) ∨
    (w.toNat / 4096 = 0x8 ∧ w.toNat % 16 ∈ [0x8, 0x9, 0xA, 0xB, 0xC, 0xD, 0xF]) ∨
    (w.toNat / 4096 = 0x9 ∧ w.toNat % 16 ≠ 0) ∨
    (w.toNat / 4096 = 0xE ∧ w.toNat % 256 ∉ [0x9E, 0xA1]) ∨
    (w.toNat / 4096 = 0xF ∧ w.toNat % 256 ∉ [0x07, 0x0A, 0x15, 0x18, 0x1E, 0x29, 0x33, 0x55, 0x65])

/-- Words written out from the opcode map of 30_encoding.md section 3, one of each format, and one unrecognised word. That
0x8127 is SUBN rests on sub-opcode 7, the spec's general knowledge (its decision D12, log 7), and that 0x5AB1 is unrecognised
on its decision D14. -/
def Obligations.SampleWordsDecode : Prop :=
  decode 0x00EE = .ret ∧ decode 0x1ABC = .jp 0xABC ∧ decode 0x3A42 = .seImm 0xA 0x42 ∧
  decode 0x8127 = .subn 1 2 ∧ decode 0xD015 = .drw 0 1 5 ∧ decode 0xF265 = .ldVxMem 2 ∧
  decode 0x5AB1 = .undef 0x5AB1

/-! ## The step -/

/-- R54: a running machine with `pc <= 0xFFE` executes the instruction of the word `256 * MEM[pc] + MEM[pc+1]`. -/
def Obligations.StepExecutesTheBigEndianWordAtPc : Prop :=
  ∀ s : State, s.fault = 0 → s.pc.toNat ≤ 0xFFE →
    step s = exec (decode (BitVec.ofNat 16
      (256 * (s.mem.read s.pc.toNat).toNat + (s.mem.read (s.pc.toNat + 1)).toNat))) s

/-- "While `FAULT != 0`, `step` does nothing" (60_exceptions.md section 2, the spec's decision D2), and "a step whose
`pc > 0xFFE` raises `FetchOutOfRange` before reading anything" (20_memory.md section 4, its decision D6): code 1 is latched
and nothing else changes. -/
def Obligations.HaltedOrUnfetchableStepExecutesNothing : Prop :=
  (∀ s : State, s.fault ≠ 0 → step s = .next s) ∧
  (∀ s : State, s.fault = 0 → 0xFFE < s.pc.toNat → step s = .next { s with fault := 1 })

/-- Every step of every state answers a next state: no fault outcome, no refusal (the five faults are latched in FAULT,
the model's reading of 60_exceptions.md sections 1 and 2, log 2). -/
def Obligations.EveryStepAnswersANextState : Prop :=
  ∀ s : State, ∃ t, step s = .next t

/-! ## Control flow -/

/-- 40_control_flow.md, 00EE RET: pops the entry below `SP` into `pc`; with `SP = 0` the fault StackUnderflow, code 3, and
nothing else (the spec's decision D4). -/
def Obligations.RetPopsTheReturnAddress : Prop :=
  (∀ w : Word, decode w = .ret ↔ w = 0x00EE) ∧
  (∀ (s : State) (k : Fin 16), s.sp.val = k.val + 1 →
    exec .ret s = .next { s with sp := k.castSucc, pc := s.stack[k] }) ∧
  (∀ s : State, s.sp = 0 → exec .ret s = .next { s with fault := 3 })

/-- 40_control_flow.md, 1NNN JP: `pc <- zext_16(NNN)`, unchecked; a jump to its own address is a fixed point of `step`; a jump to 0xFFF is taken and
the next step faults FetchOutOfRange, code 1 (the spec's decision D6). -/
def Obligations.JpSetsPc : Prop :=
  (∀ (w : Word) (nnn : Addr12), decode w = .jp nnn ↔ w &&& 0xF000 = 0x1000 ∧ nnn = w.extractLsb' 0 12) ∧
  (∀ (nnn : Addr12) (s : State), exec (.jp nnn) s = .next { s with pc := nnn.zeroExtend 16 }) ∧
  (∀ s : State, s.fault = 0 → s.pc.toNat ≤ 0xFFE → s.fetchWord = 0x1000 + s.pc → step s = .next s) ∧
  (∀ s t : State, s.fault = 0 → exec (.jp 0xFFF) s = .next t → step t = .next { t with fault := 1 })

/-- 40_control_flow.md, 2NNN CALL: pushes `pc + 2` (the spec's decision D8) and jumps; with `SP = 16` the fault
StackOverflow, code 2, and nothing else (its decision D3). -/
def Obligations.CallPushesTheNextAddress : Prop :=
  (∀ (w : Word) (nnn : Addr12), decode w = .call nnn ↔ w &&& 0xF000 = 0x2000 ∧ nnn = w.extractLsb' 0 12) ∧
  (∀ (nnn : Addr12) (s : State) (k : Fin 16), s.sp = k.castSucc →
    exec (.call nnn) s =
      .next { s with stack := s.stack.set k (s.pc + 2), sp := k.succ, pc := nnn.zeroExtend 16 }) ∧
  (∀ (nnn : Addr12) (s : State), s.sp = 16 → exec (.call nnn) s = .next { s with fault := 2 })

/-- 40_control_flow.md, BNNN JP V0: `pc` is the 16-bit sum of NNN and `V[0]`, which is exact and not masked to 12 bits
(the spec's decision D30). -/
def Obligations.JpV0AddsV0 : Prop :=
  (∀ (w : Word) (nnn : Addr12), decode w = .jpV0 nnn ↔ w &&& 0xF000 = 0xB000 ∧ nnn = w.extractLsb' 0 12) ∧
  (∀ (nnn : Addr12) (s : State), ∃ a : Word, a.toNat = nnn.toNat + (s.v[0]).toNat ∧
    exec (.jpV0 nnn) s = .next { s with pc := a })

/-- 40_control_flow.md, UNDEF: a word matching none of the 34 patterns (the granularity is the spec's decision D14, three of
the patterns its decision D12) changes nothing but `pc`, which advances by 2. -/
def Obligations.UndefOnlyAdvances : Prop :=
  (∀ w : Word, (∀ p ∈ specPatterns, w &&& p.1 ≠ p.2) → decode w = .undef w) ∧
  (∀ (w : Word) (s : State), exec (.undef w) s = .next { s with pc := s.pc + 2 })

/-! ## Skips -/

/-- R101, R102: SE Vx, nn and SNE Vx, nn write `pc + 4` when the comparison holds and `pc + 2` when not, nothing else. -/
def Obligations.SkipsOnImmediateCompare : Prop :=
  (∀ (w : Word) (x : Reg) (nn : Byte), decode w = .seImm x nn ↔
    w &&& 0xF000 = 0x3000 ∧ x = (w.extractLsb' 8 4).toFin ∧ nn = w.extractLsb' 0 8) ∧
  (∀ (w : Word) (x : Reg) (nn : Byte), decode w = .sneImm x nn ↔
    w &&& 0xF000 = 0x4000 ∧ x = (w.extractLsb' 8 4).toFin ∧ nn = w.extractLsb' 0 8) ∧
  (∀ (x : Reg) (nn : Byte) (s : State),
    exec (.seImm x nn) s = .next { s with pc := if s.v[x] = nn then s.pc + 4 else s.pc + 2 }) ∧
  (∀ (x : Reg) (nn : Byte) (s : State),
    exec (.sneImm x nn) s = .next { s with pc := if s.v[x] ≠ nn then s.pc + 4 else s.pc + 2 })

/-- R103, R104: SE Vx, Vy and SNE Vx, Vy. -/
def Obligations.SkipsOnRegisterCompare : Prop :=
  (∀ (w : Word) (x y : Reg), decode w = .seReg x y ↔
    w &&& 0xF00F = 0x5000 ∧ x = (w.extractLsb' 8 4).toFin ∧ y = (w.extractLsb' 4 4).toFin) ∧
  (∀ (w : Word) (x y : Reg), decode w = .sneReg x y ↔
    w &&& 0xF00F = 0x9000 ∧ x = (w.extractLsb' 8 4).toFin ∧ y = (w.extractLsb' 4 4).toFin) ∧
  (∀ (x y : Reg) (s : State),
    exec (.seReg x y) s = .next { s with pc := if s.v[x] = s.v[y] then s.pc + 4 else s.pc + 2 }) ∧
  (∀ (x y : Reg) (s : State),
    exec (.sneReg x y) s = .next { s with pc := if s.v[x] ≠ s.v[y] then s.pc + 4 else s.pc + 2 })

/-- 41_skips.md, EX9E SKP and EXA1 SKNP: skip if key `V[X]` is, respectively is not, pressed; with `V[X] >= 16` the fault
KeyIndexOutOfRange, code 5, and nothing else (the spec's decision D7). -/
def Obligations.SkipsOnKey : Prop :=
  (∀ (w : Word) (x : Reg), decode w = .skp x ↔ w &&& 0xF0FF = 0xE09E ∧ x = (w.extractLsb' 8 4).toFin) ∧
  (∀ (w : Word) (x : Reg), decode w = .sknp x ↔ w &&& 0xF0FF = 0xE0A1 ∧ x = (w.extractLsb' 8 4).toFin) ∧
  (∀ (x : Reg) (s : State), (s.v[x]).toNat < 16 →
    exec (.skp x) s = .next { s with pc := if s.key.getLsbD (s.v[x]).toNat = true then s.pc + 4 else s.pc + 2 }) ∧
  (∀ (x : Reg) (s : State), (s.v[x]).toNat < 16 →
    exec (.sknp x) s = .next { s with pc := if s.key.getLsbD (s.v[x]).toNat = false then s.pc + 4 else s.pc + 2 }) ∧
  (∀ (x : Reg) (s : State), 16 ≤ (s.v[x]).toNat →
    exec (.skp x) s = .next { s with fault := 5 } ∧ exec (.sknp x) s = .next { s with fault := 5 })

/-! ## Register-immediate instructions -/

/-- R110: `V[X] <- NN`. -/
def Obligations.LdImmLoadsTheImmediate : Prop :=
  (∀ (w : Word) (x : Reg) (nn : Byte), decode w = .ldImm x nn ↔
    w &&& 0xF000 = 0x6000 ∧ x = (w.extractLsb' 8 4).toFin ∧ nn = w.extractLsb' 0 8) ∧
  (∀ (x : Reg) (nn : Byte) (s : State),
    exec (.ldImm x nn) s = .next { s with v := s.v.set x nn, pc := s.pc + 2 })

/-- R111: `V[X] <- (V[X] + NN) mod 256`, and VF is written only as a plain destination. -/
def Obligations.AddImmWrapsWithoutFlag : Prop :=
  (∀ (w : Word) (x : Reg) (nn : Byte), decode w = .addImm x nn ↔
    w &&& 0xF000 = 0x7000 ∧ x = (w.extractLsb' 8 4).toFin ∧ nn = w.extractLsb' 0 8) ∧
  (∀ (x : Reg) (nn : Byte) (s : State), ∃ b : Byte, b.toNat = ((s.v[x]).toNat + nn.toNat) % 256 ∧
    exec (.addImm x nn) s = .next { s with v := s.v.set x b, pc := s.pc + 2 })

/-- 42_immediate.md, CXNN RND: `V[X] <- r and NN`. That the random byte `r` is `Config.randomByte` at the state's count of
draws, and that the count then advances, is the model's own form of the free input (log 1); the statement holds whatever
that byte is. -/
def Obligations.RndMasksTheRandomByte : Prop :=
  (∀ (w : Word) (x : Reg) (nn : Byte), decode w = .rnd x nn ↔
    w &&& 0xF000 = 0xC000 ∧ x = (w.extractLsb' 8 4).toFin ∧ nn = w.extractLsb' 0 8) ∧
  (∀ (x : Reg) (nn : Byte) (s : State),
    exec (.rnd x nn) s = .next
      { s with v := s.v.set x (Config.randomByte s.draws &&& nn), pc := s.pc + 2, draws := s.draws + 1 })

/-! ## Register-to-register operations -/

/-- R116: `V[X] <- V[Y]`. -/
def Obligations.LdRegCopiesARegister : Prop :=
  (∀ (w : Word) (x y : Reg), decode w = .ldReg x y ↔
    w &&& 0xF00F = 0x8000 ∧ x = (w.extractLsb' 8 4).toFin ∧ y = (w.extractLsb' 4 4).toFin) ∧
  (∀ (x y : Reg) (s : State), exec (.ldReg x y) s = .next { s with v := s.v.set x s.v[y], pc := s.pc + 2 })

/-- R117, R118, R119: OR, AND, XOR, bit by bit, VF not touched but as a destination. -/
def Obligations.LogicalOperationsWorkBitwise : Prop :=
  (∀ (w : Word) (x y : Reg), decode w = .or x y ↔
    w &&& 0xF00F = 0x8001 ∧ x = (w.extractLsb' 8 4).toFin ∧ y = (w.extractLsb' 4 4).toFin) ∧
  (∀ (w : Word) (x y : Reg), decode w = .and x y ↔
    w &&& 0xF00F = 0x8002 ∧ x = (w.extractLsb' 8 4).toFin ∧ y = (w.extractLsb' 4 4).toFin) ∧
  (∀ (w : Word) (x y : Reg), decode w = .xor x y ↔
    w &&& 0xF00F = 0x8003 ∧ x = (w.extractLsb' 8 4).toFin ∧ y = (w.extractLsb' 4 4).toFin) ∧
  (∀ (x y : Reg) (s : State), ∃ b : Byte, (∀ k, b.getLsbD k = (s.v[x].getLsbD k || s.v[y].getLsbD k)) ∧
    exec (.or x y) s = .next { s with v := s.v.set x b, pc := s.pc + 2 }) ∧
  (∀ (x y : Reg) (s : State), ∃ b : Byte, (∀ k, b.getLsbD k = (s.v[x].getLsbD k && s.v[y].getLsbD k)) ∧
    exec (.and x y) s = .next { s with v := s.v.set x b, pc := s.pc + 2 }) ∧
  (∀ (x y : Reg) (s : State), ∃ b : Byte, (∀ k, b.getLsbD k = (s.v[x].getLsbD k ^^ s.v[y].getLsbD k)) ∧
    exec (.xor x y) s = .next { s with v := s.v.set x b, pc := s.pc + 2 })

/-- 43_alu.md, 8XY4 ADD: `V[X] <- (V[X] + V[Y]) mod 256`, then VF = 1 iff the sum is at least 256, so that with `X = 0xF` the
carry remains (the order is the spec's decision D11). -/
def Obligations.AddRegSetsTheCarry : Prop :=
  (∀ (w : Word) (x y : Reg), decode w = .addReg x y ↔
    w &&& 0xF00F = 0x8004 ∧ x = (w.extractLsb' 8 4).toFin ∧ y = (w.extractLsb' 4 4).toFin) ∧
  (∀ (x y : Reg) (s : State), ∃ b : Byte, b.toNat = ((s.v[x]).toNat + (s.v[y]).toNat) % 256 ∧
    exec (.addReg x y) s = .next
      { s with v := (s.v.set x b).set 15 (if 256 ≤ (s.v[x]).toNat + (s.v[y]).toNat then 1 else 0),
               pc := s.pc + 2 })

/-- 43_alu.md, 8XY5 SUB and 8XY7 SUBN: the difference modulo 256, then VF = NOT borrow, 1 also at equality (the spec's
decision D9) and last when `X = 0xF` (its decision D11). That SUBN is sub-opcode 7 is the spec's general knowledge (its
decision D12, log 7). -/
def Obligations.SubtractionsSetNotBorrow : Prop :=
  (∀ (w : Word) (x y : Reg), decode w = .sub x y ↔
    w &&& 0xF00F = 0x8005 ∧ x = (w.extractLsb' 8 4).toFin ∧ y = (w.extractLsb' 4 4).toFin) ∧
  (∀ (w : Word) (x y : Reg), decode w = .subn x y ↔
    w &&& 0xF00F = 0x8007 ∧ x = (w.extractLsb' 8 4).toFin ∧ y = (w.extractLsb' 4 4).toFin) ∧
  (∀ (x y : Reg) (s : State), ∃ b : Byte, (b.toNat : Int) = ((s.v[x]).toNat - (s.v[y]).toNat : Int) % 256 ∧
    exec (.sub x y) s = .next
      { s with v := (s.v.set x b).set 15 (if (s.v[y]).toNat ≤ (s.v[x]).toNat then 1 else 0), pc := s.pc + 2 }) ∧
  (∀ (x y : Reg) (s : State), ∃ b : Byte, (b.toNat : Int) = ((s.v[y]).toNat - (s.v[x]).toNat : Int) % 256 ∧
    exec (.subn x y) s = .next
      { s with v := (s.v.set x b).set 15 (if (s.v[x]).toNat ≤ (s.v[y]).toNat then 1 else 0), pc := s.pc + 2 })

/-- 43_alu.md, 8XY6 SHR and 8XYE SHL: `V[X]` shifted by one in place, `Y` ignored (SHIFT_SOURCE = X, the spec's decision
D10 and the model's choice of log 3), VF = the bit shifted out, last when `X = 0xF` (its decision D11). That SHR is sub-opcode
6 and SHL sub-opcode 0xE is the spec's general knowledge (its decision D12, log 7). -/
def Obligations.ShiftsSetTheBitShiftedOut : Prop :=
  (∀ (w : Word) (x y : Reg), decode w = .shr x y ↔
    w &&& 0xF00F = 0x8006 ∧ x = (w.extractLsb' 8 4).toFin ∧ y = (w.extractLsb' 4 4).toFin) ∧
  (∀ (w : Word) (x y : Reg), decode w = .shl x y ↔
    w &&& 0xF00F = 0x800E ∧ x = (w.extractLsb' 8 4).toFin ∧ y = (w.extractLsb' 4 4).toFin) ∧
  (∀ (x y : Reg) (s : State), ∃ b f : Byte, b.toNat = (s.v[x]).toNat / 2 ∧ f.toNat = (s.v[x]).toNat % 2 ∧
    exec (.shr x y) s = .next { s with v := (s.v.set x b).set 15 f, pc := s.pc + 2 }) ∧
  (∀ (x y : Reg) (s : State), ∃ b f : Byte,
    b.toNat = (s.v[x]).toNat * 2 % 256 ∧ f.toNat = (s.v[x]).toNat / 128 ∧
    exec (.shl x y) s = .next { s with v := (s.v.set x b).set 15 f, pc := s.pc + 2 })

/-- 43_alu.md section 3: the result of SUB is that of adding `256 - b`, and its flag the carry out of
`a + (255 - b) + 1` in 9 bits (an identity the spec derives); "`ADD` then `SUB` of the same `V[Y]` restores `V[X]`" for
distinct `X`, `Y`, neither of them 0xF, whose value the first flag would overwrite. -/
def Obligations.SubtractIsAddOfTheComplement : Prop :=
  (∀ (x y : Reg) (s t : State), x ≠ 15 → exec (.sub x y) s = .next t →
    (t.v[x]).toNat = ((s.v[x]).toNat + (256 - (s.v[y]).toNat)) % 256 ∧
    (t.v[15]).toNat = ((s.v[x]).toNat + (255 - (s.v[y]).toNat) + 1) / 256) ∧
  (∀ (x y : Reg) (s t u : State), x ≠ y → x ≠ 15 → y ≠ 15 →
    exec (.addReg x y) s = .next t → exec (.sub x y) t = .next u → u.v[x] = s.v[x])

/-! ## Index register and memory -/

/-- R130: `I <- zext_16(NNN)`. -/
def Obligations.LdILoadsTheAddress : Prop :=
  (∀ (w : Word) (nnn : Addr12), decode w = .ldI nnn ↔ w &&& 0xF000 = 0xA000 ∧ nnn = w.extractLsb' 0 12) ∧
  (∀ (nnn : Addr12) (s : State),
    exec (.ldI nnn) s = .next { s with i := nnn.zeroExtend 16, pc := s.pc + 2 })

/-- 44_index_memory.md, FX1E ADD I, Vx: `I <- (I + V[X]) mod 65536`; VF is not written (the spec's decision D26). -/
def Obligations.AddIWrapsAtSixteenBits : Prop :=
  (∀ (w : Word) (x : Reg), decode w = .addIVx x ↔ w &&& 0xF0FF = 0xF01E ∧ x = (w.extractLsb' 8 4).toFin) ∧
  (∀ (x : Reg) (s : State), ∃ a : Word, a.toNat = (s.i.toNat + (s.v[x]).toNat) % 65536 ∧
    exec (.addIVx x) s = .next { s with i := a, pc := s.pc + 2 })

/-- R132: `I <- 5 * V[X]` only if `V[X] < 16`; otherwise nothing but `pc` changes. -/
def Obligations.LdFPointsAtTheGlyph : Prop :=
  (∀ (w : Word) (x : Reg), decode w = .ldFVx x ↔ w &&& 0xF0FF = 0xF029 ∧ x = (w.extractLsb' 8 4).toFin) ∧
  (∀ (x : Reg) (s : State), (s.v[x]).toNat < 16 → ∃ a : Word, a.toNat = 5 * (s.v[x]).toNat ∧
    exec (.ldFVx x) s = .next { s with i := a, pc := s.pc + 2 }) ∧
  (∀ (x : Reg) (s : State), 16 ≤ (s.v[x]).toNat → exec (.ldFVx x) s = .next { s with pc := s.pc + 2 })

/-- 44_index_memory.md, FX33 LD B, Vx: the hundreds, tens and ones of `V[X]` at `I`, `I + 1`, `I + 2`; every other byte reads
as before and nothing else but `pc` changes, `I` included. With `I > 0xFFD` the fault DataAddressOutOfRange, code 4, and no
byte is written (the spec's decision D5). -/
def Obligations.LdBStoresDecimalDigits : Prop :=
  (∀ (w : Word) (x : Reg), decode w = .ldBVx x ↔ w &&& 0xF0FF = 0xF033 ∧ x = (w.extractLsb' 8 4).toFin) ∧
  (∀ (x : Reg) (s : State), s.i.toNat + 2 ≤ 0xFFF → ∃ t, exec (.ldBVx x) s = .next t ∧
    t = { s with mem := t.mem, pc := s.pc + 2 } ∧
    (t.mem.read (s.effectiveAddress 0)).toNat = (s.v[x]).toNat / 100 ∧
    (t.mem.read (s.effectiveAddress 1)).toNat = (s.v[x]).toNat / 10 % 10 ∧
    (t.mem.read (s.effectiveAddress 2)).toNat = (s.v[x]).toNat % 10 ∧
    ∀ a, a < s.effectiveAddress 0 ∨ s.effectiveAddress 0 + 3 ≤ a → t.mem.read a = s.mem.read a) ∧
  (∀ (x : Reg) (s : State), 0xFFF < s.i.toNat + 2 → exec (.ldBVx x) s = .next { s with fault := 4 })

/-- 44_index_memory.md, FX55 LD [I], Vx: `V[k]` at `I + k` for `k` from 0 to X; every other byte reads as before and nothing
else but `pc` changes, `I` included (the spec's decision D26). With `I + X > 0xFFF` the fault DataAddressOutOfRange, code 4,
and no byte is written (its decision D5). -/
def Obligations.LdMemStoresRegisters : Prop :=
  (∀ (w : Word) (x : Reg), decode w = .ldMemVx x ↔ w &&& 0xF0FF = 0xF055 ∧ x = (w.extractLsb' 8 4).toFin) ∧
  (∀ (x : Reg) (s : State), s.i.toNat + x.val ≤ 0xFFF → ∃ t, exec (.ldMemVx x) s = .next t ∧
    t = { s with mem := t.mem, pc := s.pc + 2 } ∧
    (∀ k : Reg, k ≤ x → t.mem.read (s.effectiveAddress k.val) = s.v[k]) ∧
    ∀ a, a < s.effectiveAddress 0 ∨ s.effectiveAddress x.val < a → t.mem.read a = s.mem.read a) ∧
  (∀ (x : Reg) (s : State), 0xFFF < s.i.toNat + x.val → exec (.ldMemVx x) s = .next { s with fault := 4 })

/-- 44_index_memory.md, FX65 LD Vx, [I]: the byte at `I + k` to `V[k]` for `k` from 0 to X; the registers above X, `I` and
everything else but `pc` are unchanged. With `I + X > 0xFFF` the fault DataAddressOutOfRange, code 4, and no register is
written (the spec's decision D5). -/
def Obligations.LdVxMemLoadsRegisters : Prop :=
  (∀ (w : Word) (x : Reg), decode w = .ldVxMem x ↔ w &&& 0xF0FF = 0xF065 ∧ x = (w.extractLsb' 8 4).toFin) ∧
  (∀ (x : Reg) (s : State), s.i.toNat + x.val ≤ 0xFFF → ∃ t, exec (.ldVxMem x) s = .next t ∧
    t = { s with v := t.v, pc := s.pc + 2 } ∧
    ∀ k : Reg, t.v[k] = if k ≤ x then s.mem.read (s.effectiveAddress k.val) else s.v[k]) ∧
  (∀ (x : Reg) (s : State), 0xFFF < s.i.toNat + x.val → exec (.ldVxMem x) s = .next { s with fault := 4 })

/-- 20_memory.md section 7, instruction-fetch coherence (derived by the spec), for both storing instructions. (1) After FX55,
for every X, the word fetched from any `pc` is made of the stored register at each stored address and of the old byte at every
other; (2) the same after FX33 with the three digits. (3) With two real steps: a running machine that stores at the address of
the next instruction, `I = pc + 2`, executes in its very next step the instruction it has just stored, for FX55 with `X >= 1`
the word `V[0] ++ V[1]`; (4) for FX33 the word of the hundreds and tens digits. -/
def Obligations.StoresAreSeenByTheNextFetch : Prop :=
  (∀ (x : Reg) (s t : State), s.i.toNat + x.val ≤ 0xFFF → exec (.ldMemVx x) s = .next t →
    ∃ b : Nat → Byte, (∀ k : Reg, k ≤ x → b (s.effectiveAddress k.val) = s.v[k]) ∧
      (∀ a, a < s.effectiveAddress 0 ∨ s.effectiveAddress x.val < a → b a = s.mem.read a) ∧
      ∀ pc : Word, ({ t with pc := pc } : State).fetchWord = b pc.toNat ++ b (pc.toNat + 1)) ∧
  (∀ (x : Reg) (s t : State), s.i.toNat + 2 ≤ 0xFFF → exec (.ldBVx x) s = .next t →
    ∃ b : Nat → Byte, (b (s.effectiveAddress 0)).toNat = (s.v[x]).toNat / 100 ∧
      (b (s.effectiveAddress 1)).toNat = (s.v[x]).toNat / 10 % 10 ∧
      (b (s.effectiveAddress 2)).toNat = (s.v[x]).toNat % 10 ∧
      (∀ a, a < s.effectiveAddress 0 ∨ s.effectiveAddress 0 + 3 ≤ a → b a = s.mem.read a) ∧
      ∀ pc : Word, ({ t with pc := pc } : State).fetchWord = b pc.toNat ++ b (pc.toNat + 1)) ∧
  (∀ (x : Reg) (s : State), s.fault = 0 → decode s.fetchWord = .ldMemVx x → 1 ≤ x.val →
    s.i.toNat = s.pc.toNat + 2 → s.i.toNat + x.val ≤ 0xFFF →
    ∃ t, step s = .next t ∧ t.pc = s.i ∧ step t = exec (decode (s.v[0] ++ s.v[1])) t) ∧
  (∀ (x : Reg) (s : State), s.fault = 0 → decode s.fetchWord = .ldBVx x →
    s.i.toNat = s.pc.toNat + 2 → s.i.toNat + 2 ≤ 0xFFF →
    ∃ (t : State) (hundreds tens : Byte), hundreds.toNat = (s.v[x]).toNat / 100 ∧
      tens.toNat = (s.v[x]).toNat / 10 % 10 ∧ step s = .next t ∧ t.pc = s.i ∧
      step t = exec (decode (hundreds ++ tens)) t)

/-! ## Display -/

/-- R140: every cell becomes 0 and nothing but `pc` changes besides. -/
def Obligations.ClsClearsEveryCell : Prop :=
  (∀ w : Word, decode w = .cls ↔ w = 0x00E0) ∧
  (∀ s : State, ∃ t, exec .cls s = .next t ∧ t = { s with fb := t.fb, pc := s.pc + 2 } ∧
    ∀ x y, Display.pixel t.fb x y = false)

/-- 45_display.md, DXYN DRW: exactly the cells on which a 1 bit of the sprite lands are toggled, VF = 1 iff one of them
held 1 and 0 otherwise (also for `N = 0`, the spec's decision D27), and nothing but `pc` changes besides; the coordinates
are read before VF is written (its decision D11), bit 7 is leftmost (its decision D22). With `N >= 1` and
`I + N - 1 > 0xFFF` the fault DataAddressOutOfRange, code 4, and nothing else (its decision D5). -/
def Obligations.DrwTogglesTheSpriteCells : Prop :=
  (∀ (w : Word) (x y : Reg) (n : RowCount), decode w = .drw x y n ↔ w &&& 0xF000 = 0xD000 ∧
    x = (w.extractLsb' 8 4).toFin ∧ y = (w.extractLsb' 4 4).toFin ∧ n = (w.extractLsb' 0 4).toFin) ∧
  (∀ (x y : Reg) (n : RowCount) (s : State), n = 0 ∨ s.i.toNat + n.val - 1 ≤ 0xFFF →
    ∃ t f, exec (.drw x y n) s = .next t ∧ t = { s with fb := t.fb, v := s.v.set 15 f, pc := s.pc + 2 } ∧
      (∀ px py, Display.pixel t.fb px py = (Display.pixel s.fb px py ^^ s.spriteCovers x y n px py)) ∧
      (f = 0 ∨ f = 1) ∧
      (f = 1 ↔ ∃ px py, s.spriteCovers x y n px py = true ∧ Display.pixel s.fb px py = true)) ∧
  (∀ (x y : Reg) (n : RowCount) (s : State), 1 ≤ n.val → 0xFFF < s.i.toNat + n.val - 1 →
    exec (.drw x y n) s = .next { s with fault := 4 })

/-- Properties of two draws and of a blank display that follow from DRW (45_display.md): drawn twice with the same operands,
`X` and `Y` not 0xF, a sprite restores FB; the second draw sets VF = 1 iff a sprite bit lands on a cell that held 0 before
both (the spec's derived remark says "iff the sprite has at least one 1 bit", which DRW's own pseudocode gives only where such
a cell exists, log 9); drawn on a blank display a sprite gives VF = 0 and sets exactly its cells. -/
def Obligations.DrawingTwiceRestoresTheDisplay : Prop :=
  (∀ (x y : Reg) (n : RowCount) (s t u : State), x ≠ 15 → y ≠ 15 → (n = 0 ∨ s.i.toNat + n.val - 1 ≤ 0xFFF) →
    exec (.drw x y n) s = .next t → exec (.drw x y n) t = .next u →
    u.fb = s.fb ∧
    (u.v[15] = 1 ↔ ∃ px py, s.spriteCovers x y n px py = true ∧ Display.pixel s.fb px py = false)) ∧
  (∀ (x y : Reg) (n : RowCount) (s t : State), (∀ px py, Display.pixel s.fb px py = false) →
    (n = 0 ∨ s.i.toNat + n.val - 1 ≤ 0xFFF) → exec (.drw x y n) s = .next t →
    t.v[15] = 0 ∧ ∀ px py, Display.pixel t.fb px py = s.spriteCovers x y n px py)

/-! ## Timers and keys -/

/-- 46_timers_keys.md, FX07 LD Vx, DT (the pairing of word and timer is the spec's general knowledge, its decision D13):
`V[X] <- DT`, the timer as the host's ticks have left it: after `n` ticks its value before them minus `n`, floored
at 0 (its decision D17). -/
def Obligations.LdVxDtReadsTheDelayTimer : Prop :=
  (∀ (w : Word) (x : Reg), decode w = .ldVxDt x ↔ w &&& 0xF0FF = 0xF007 ∧ x = (w.extractLsb' 8 4).toFin) ∧
  (∀ (x : Reg) (s : State), exec (.ldVxDt x) s = .next { s with v := s.v.set x s.dt, pc := s.pc + 2 }) ∧
  (∀ (x : Reg) (s : State) (n : Nat), ∃ t, exec (.ldVxDt x) (run (List.replicate n .tick) s) = .next t ∧
    (t.v[x]).toNat = (s.dt).toNat - n)

/-- 46_timers_keys.md, FX15 LD DT, Vx and FX18 LD ST, Vx (the pairing as above, D13): `DT <- V[X]` and `ST <- V[X]`. -/
def Obligations.TimerWritesSetTheTimers : Prop :=
  (∀ (w : Word) (x : Reg), decode w = .ldDtVx x ↔ w &&& 0xF0FF = 0xF015 ∧ x = (w.extractLsb' 8 4).toFin) ∧
  (∀ (w : Word) (x : Reg), decode w = .ldStVx x ↔ w &&& 0xF0FF = 0xF018 ∧ x = (w.extractLsb' 8 4).toFin) ∧
  (∀ (x : Reg) (s : State), exec (.ldDtVx x) s = .next { s with dt := s.v[x], pc := s.pc + 2 }) ∧
  (∀ (x : Reg) (s : State), exec (.ldStVx x) s = .next { s with st := s.v[x], pc := s.pc + 2 })

/-- 46_timers_keys.md, FX0A LD Vx, K: with no key down nothing at all changes; otherwise the least pressed index goes to
`V[X]` (the spec's decision D15) and `pc` advances. -/
def Obligations.LdVxKWaitsForAKey : Prop :=
  (∀ (w : Word) (x : Reg), decode w = .ldVxK x ↔ w &&& 0xF0FF = 0xF00A ∧ x = (w.extractLsb' 8 4).toFin) ∧
  (∀ (x : Reg) (s : State), (∀ k : Fin 16, s.key.getLsbD k.val = false) → exec (.ldVxK x) s = .next s) ∧
  (∀ (x : Reg) (s : State) (k : Fin 16), s.key.getLsbD k.val = true →
    (∀ j : Fin 16, j < k → s.key.getLsbD j.val = false) →
    exec (.ldVxK x) s = .next { s with v := s.v.set x (BitVec.ofNat 8 k.val), pc := s.pc + 2 })

/-- What ends a key-wait (70_reset_and_hazards.md section 4, 60_exceptions.md section 5). While the machine waits for a key a
step changes nothing; every transaction leaves it waiting but a `set_keys` with a key down, a `reset`, and a `load` that
changes a byte of the word at `pc`; and `set_keys` with a key down does end the wait: the next step advances `pc`. The spec's
remark "Only `set_keys` can end a key-wait" passes over the last two, which its own rules for `reset` and `load` give
(log 13). -/
def Obligations.KeyWaitEndsOnlyByKeysResetOrLoad : Prop :=
  ∀ s : State, s.waitingForKey → step s = .next s ∧
    (∀ a : Transaction, (transact a s).1.waitingForKey ∨ (∃ k, k ≠ 0 ∧ a = .setKeys k) ∨ a = .reset ∨
      ∃ bytes, a = .load bytes ∧ ((transact a s).1.mem.read s.pc.toNat ≠ s.mem.read s.pc.toNat ∨
        (transact a s).1.mem.read (s.pc.toNat + 1) ≠ s.mem.read (s.pc.toNat + 1))) ∧
    ∀ k : BitVec 16, k ≠ 0 → ¬ (transact (.setKeys k) s).1.waitingForKey ∧
      ∃ t, step (transact (.setKeys k) s).1 = .next t ∧ t.pc = s.pc + 2

/-! ## Whole-machine rules -/

/-- 10_state.md section 10, the access matrix, over all instructions: (1) an element of the state an instruction does not
list as written is unchanged; (2) what it leaves in an element it writes depends only on `pc` and the elements it lists as
read, those of its check alone where it faults. That the random input is the model's count of draws, read and written by RND,
so that (2) compares for RND only states with the same count, is the model's choice and not the matrix's (log 1). -/
def Obligations.AccessMatrixIsComplete : Prop :=
  (∀ (i : Instr) (s t : State) (e : Element), exec i s = .next t → ¬ instrWrites i s e → e.same s t) ∧
  (∀ (i : Instr) (s s' t t' : State), exec i s = .next t → exec i s' = .next t' → s.pc = s'.pc →
    (∀ e, instrReads i s e → e.same s s') → ∀ e, instrWrites i s e → e.same t t')

/-- R78: every instruction's write of `pc`, by kind: the four jumps, the skips, the key-wait, the others and the
unrecognised words; a step that faults does not write `pc`. -/
def Obligations.ProgramCounterWritesAreTheListedOnes : Prop :=
  ∀ (i : Instr) (s t : State), exec i s = .next t →
    (instructionFault i s ≠ none → t.pc = s.pc) ∧
    (instructionFault i s = none →
      match i with
      | .jp nnn => t.pc = nnn.zeroExtend 16
      | .call nnn => t.pc = nnn.zeroExtend 16
      | .jpV0 nnn => t.pc = nnn.zeroExtend 16 + (s.v[0]).zeroExtend 16
      | .ret => ∀ k : Fin 16, k.val + 1 = s.sp.val → t.pc = s.stack[k]
      | .seImm x nn => t.pc = s.pc + if s.v[x] = nn then 4 else 2
      | .sneImm x nn => t.pc = s.pc + if s.v[x] = nn then 2 else 4
      | .seReg x y => t.pc = s.pc + if s.v[x] = s.v[y] then 4 else 2
      | .sneReg x y => t.pc = s.pc + if s.v[x] = s.v[y] then 2 else 4
      | .skp x => t.pc = s.pc + if s.key.getLsbD (s.v[x]).toNat = true then 4 else 2
      | .sknp x => t.pc = s.pc + if s.key.getLsbD (s.v[x]).toNat = true then 2 else 4
      | .ldVxK _ => t.pc = if s.key = 0 then s.pc else s.pc + 2
      | _ => t.pc = s.pc + 2)

/-- 10_state.md section 2: the instructions that write VF as a side effect are exactly ADD, SUB, SUBN, SHR, SHL (register forms) and DRW, they
write 0 or 1, also when X is 0xF; any other instruction changes VF only with the X nibble 0xF. -/
def Obligations.FlagWritersLeaveZeroOrOne : Prop :=
  (∀ (i : Instr) (s t : State), exec i s = .next t → instructionFault i s = none →
    (match i with
     | .addReg _ _ | .sub _ _ | .subn _ _ | .shr _ _ | .shl _ _ | .drw _ _ _ => True
     | _ => False) → t.v[15] = 0 ∨ t.v[15] = 1) ∧
  (∀ (i : Instr) (s t : State), exec i s = .next t →
    (match i with
     | .addReg _ _ | .sub _ _ | .subn _ _ | .shr _ _ | .shl _ _ | .drw _ _ _ => False
     | .ldImm x _ | .addImm x _ | .ldReg x _ | .or x _ | .and x _ | .xor x _ | .rnd x _ => x ≠ 15
     | .ldVxDt x | .ldVxK x | .ldVxMem x => x ≠ 15
     | _ => True) → t.v[15] = s.v[15])

/-- 60_exceptions.md section 2, fault entry (the spec's decision D2): a step that latches a fault changes FAULT and nothing
else. -/
def Obligations.FaultingStepChangesOnlyFault : Prop :=
  ∀ s t : State, s.fault = 0 → step s = .next t → t.fault ≠ 0 → t = { s with fault := t.fault }

/-- 60_exceptions.md section 2, which step raises which fault, complete (the spec's decisions D2 to D7): a running
machine's step latches code `c` iff the fetch is out of range and `c = 1`, or it is not and the fetched instruction raises the
fault of code `c` by the conditions of `instructionFault`. -/
def Obligations.FaultCausesAreExactlyTheFive : Prop :=
  ∀ s t : State, s.fault = 0 → step s = .next t →
    t.fault = if 0xFFE < s.pc.toNat then 1 else
      match instructionFault (decode s.fetchWord) s with
      | none => 0
      | some .fetchOutOfRange => 1
      | some .stackOverflow => 2
      | some .stackUnderflow => 3
      | some .dataAddressOutOfRange => 4
      | some .keyIndexOutOfRange => 5

/-- 60_exceptions.md section 2, the halted machine: FAULT, once latched, is kept by every run of transactions without a
`reset`, and a `reset` clears it; on a halted machine a step does nothing and the host's other transactions work as usual (the
spec's decision D29): `set_keys` writes the keys, `tick` takes 1 from each timer above 0, `load` writes its image or refuses
a long one, and the reads read. -/
def Obligations.FaultIsStickyUntilReset : Prop :=
  (∀ (ts : List Transaction) (s : State), s.fault ≠ 0 → Transaction.reset ∉ ts → (run ts s).fault = s.fault) ∧
  (∀ s : State, (transact .reset s).1.fault = 0) ∧
  (∀ s : State, s.fault ≠ 0 →
    transact .step s = (s, .done) ∧
    (∀ k : BitVec 16, transact (.setKeys k) s = ({ s with key := k }, .done)) ∧
    (∃ d e : Byte, d.toNat = (s.dt).toNat - 1 ∧ e.toNat = (s.st).toNat - 1 ∧
      transact .tick s = ({ s with dt := d, st := e }, .done)) ∧
    (∀ bytes : List Byte, bytes.length ≤ 3584 → ∃ t, transact (.load bytes) s = (t, .done) ∧
      t = { s with mem := t.mem } ∧ (∀ (k : Nat) (h : k < bytes.length), t.mem.read (0x200 + k) = bytes[k]) ∧
      ∀ a, a < 0x200 ∨ 0x200 + bytes.length ≤ a → t.mem.read a = s.mem.read a) ∧
    (∀ bytes : List Byte, 3584 < bytes.length →
      transact (.load bytes) s = (s, .refused (.imageTooLong bytes.length))) ∧
    (∃ cells : List Bool, transact .readDisplay s = (s, .display cells) ∧ cells.length = 2048 ∧
      ∀ (x : Fin 64) (y : Fin 32), cells[x.val + 64 * y.val]? = some (Display.pixel s.fb x y)) ∧
    transact .readTimers s = (s, .timers s.dt s.st) ∧ transact .readFault s = (s, .fault s.fault))

/-- 10_state.md section 11, at reset. -/
def Obligations.ResetMeetsTheInvariant : Prop := State.reset.Inv

/-- 10_state.md section 11 (clauses the spec derives; the first clause of `State.Inv`, the canonical form of memory, is the
model's own, log 6): every step from a state of the invariant leads to one, whatever the state. -/
def Obligations.StepKeepsTheInvariant : Prop :=
  ∀ s t : State, s.Inv → step s = .next t → t.Inv

/-- 10_state.md section 11: "under any sequence of transactions", from any state of the invariant. -/
def Obligations.EveryRunKeepsTheInvariant : Prop :=
  ∀ (ts : List Transaction) (s : State), s.Inv → (run ts s).Inv

/-! ## Memory -/

/-- 20_memory.md section 7 (what the spec draws from the single order of transactions): a byte reads as last written, every
other byte as before; and a write keeps the canonical form (the model's own, log 6). -/
def Obligations.ReadGivesTheLastWrite : Prop :=
  (∀ (m : Memory) (a k : Nat) (b : Byte), a ≤ 0xFFF → (m.write a b).read k = if k = a then b else m.read k) ∧
  (∀ (m : Memory) (a : Nat) (b : Byte), m.wf → (m.write a b).wf)

/-! ## Reset and the host's transactions -/

/-- 10_state.md section 9 and 70_reset_and_hazards.md section 1: every element of the block after `reset`, from any state
(the values DOC does not state are the spec's decisions D2, D19 and D21). Only the model's own count of draws is kept
(log 1). -/
def Obligations.ResetGivesTheListedValues : Prop :=
  ∀ s t : State, (transact .reset s).1 = t →
    (∀ x : Reg, t.v[x] = 0) ∧ t.pc = 0x200 ∧ t.i = 0 ∧ t.sp = 0 ∧ (∀ k : Fin 16, t.stack[k] = 0) ∧
    t.dt = 0 ∧ t.st = 0 ∧ (∀ k : Fin 16, t.key.getLsbD k.val = false) ∧
    (∀ x y, Display.pixel t.fb x y = false) ∧ t.fault = 0 ∧ t.draws = s.draws ∧
    (∀ a, 80 ≤ a → t.mem.read a = 0) ∧
    (List.range 80).map (fun a => (t.mem.read a).toNat) =
      [0xF0, 0x90, 0x90, 0x90, 0xF0] ++ [0x20, 0x60, 0x20, 0x20, 0x70] ++ [0xF0, 0x10, 0xF0, 0x80, 0xF0] ++
      [0xF0, 0x10, 0xF0, 0x10, 0xF0] ++ [0x90, 0x90, 0xF0, 0x10, 0x10] ++ [0xF0, 0x80, 0xF0, 0x10, 0xF0] ++
      [0xF0, 0x80, 0xF0, 0x90, 0xF0] ++ [0xF0, 0x10, 0x20, 0x40, 0x40] ++ [0xF0, 0x90, 0xF0, 0x90, 0xF0] ++
      [0xF0, 0x90, 0xF0, 0x10, 0xF0] ++ [0xF0, 0x90, 0xF0, 0x90, 0x90] ++ [0xE0, 0x90, 0xE0, 0x90, 0xE0] ++
      [0xF0, 0x80, 0x80, 0x80, 0xF0] ++ [0xE0, 0x90, 0x90, 0x90, 0xE0] ++ [0xF0, 0x80, 0xF0, 0x80, 0xF0] ++
      [0xF0, 0x80, 0xF0, 0x80, 0x80]

/-- 70_reset_and_hazards.md section 2: `load` copies an image of at most 3584 bytes to 0x200 and touches nothing else; a
longer one is refused and nothing is written (the spec's decision D20). -/
def Obligations.LoadInstallsTheImage : Prop :=
  (∀ (bytes : List Byte) (s : State), bytes.length ≤ 3584 → ∃ t, load bytes s = .next t ∧
    t = { s with mem := t.mem } ∧ transact (.load bytes) s = (t, .done) ∧
    (∀ (k : Nat) (h : k < bytes.length), t.mem.read (0x200 + k) = bytes[k]) ∧
    ∀ a, a < 0x200 ∨ 0x200 + bytes.length ≤ a → t.mem.read a = s.mem.read a) ∧
  (∀ (bytes : List Byte) (s : State), 3584 < bytes.length →
    transact (.load bytes) s = (s, .refused (.imageTooLong bytes.length)))

/-- 60_exceptions.md section 5, `set_keys`: `KEY[i] <- k[i]`, nothing else changes; a host that stores bytes passes bit
`i` = 1 iff byte `i` is nonzero (the spec's decision D16). -/
def Obligations.SetKeysOverwritesTheKeys : Prop :=
  (∀ (s : State) (k : BitVec 16), transact (.setKeys k) s = ({ s with key := k }, .done)) ∧
  (∀ (bytes : Vector Byte 16) (k : Fin 16), (keyBits bytes).getLsbD k.val = true ↔ bytes[k] ≠ 0)

/-- 60_exceptions.md section 5, `tick`: each timer loses 1 if it is above 0 and stays at 0 otherwise (the spec's decision
D17); nothing else changes. -/
def Obligations.TickDecrementsTheTimers : Prop :=
  ∀ s : State, ∃ d e : Byte, d.toNat = (s.dt).toNat - 1 ∧ e.toNat = (s.st).toNat - 1 ∧
    transact .tick s = ({ s with dt := d, st := e }, .done)

/-- R174: the three reads change nothing; `read_display` returns the 2048 cells in index order `x + 64*y`, `read_timers` DT
and ST, `read_fault` FAULT. -/
def Obligations.ReadsReturnTheStateUnchanged : Prop :=
  ∀ s : State, (∃ cells : List Bool, transact .readDisplay s = (s, .display cells) ∧ cells.length = 2048 ∧
      ∀ (x : Fin 64) (y : Fin 32), cells[x.val + 64 * y.val]? = some (Display.pixel s.fb x y)) ∧
    transact .readTimers s = (s, .timers s.dt s.st) ∧ transact .readFault s = (s, .fault s.fault)

/-! ## The ends of a run -/

/-- 70_reset_and_hazards.md section 5, the three ends of a run: from the point where a run is at an end (halted by a fault,
the spec's decision D2; at a jump to itself, where "every later step changes nothing"; or with no further step to come), the
transactions still to come, as long as none is a `reset` or a `load`, leave every element as it is but the timers, which the
host's ticks run down, and the keys, which it writes; and the run stays at that end. -/
def Obligations.AtAnEndOnlyTimersAndKeysMove : Prop :=
  ∀ (e : RunEnd) (s : State) (ts rest : List Transaction), e.reached s (ts ++ rest) → Transaction.reset ∉ ts →
    (∀ bytes, Transaction.load bytes ∉ ts) → e.reached (run ts s) rest ∧
    run ts s = { s with dt := (run ts s).dt, st := (run ts s).st, key := (run ts s).key } ∧
    (run ts s).dt.toNat = (s.dt).toNat - ts.count .tick ∧ (run ts s).st.toNat = (s.st).toNat - ts.count .tick

/-! ## Properties of a sprite draw -/

/-- 45_display.md section "Properties a model can check", which the spec derives from DRW and the collision detector; the
restored display of (a) and all of (b) are `Obligations.DrawingTwiceRestoresTheDisplay`. (1) The flag of the second of two
draws is the one (a) gives, 1 iff the sprite has a 1 bit, on every display on which some 1 bit of the sprite lands on an unlit
cell, the blank one among them, and for a sprite without 1 bits; in the one case left, where the 1 bits land on lit cells
alone, DRW's pseudocode gives 0 (log 9). (2) This is (c), the number of cells changed. (3) This is (d), what the display
after a draw depends on. -/
def Obligations.SpriteDrawProperties : Prop :=
  (∀ (x y : Reg) (n : RowCount) (s t u : State), x ≠ 15 → y ≠ 15 → (n = 0 ∨ s.i.toNat + n.val - 1 ≤ 0xFFF) →
    exec (.drw x y n) s = .next t → exec (.drw x y n) t = .next u →
    (s.spriteBits n = 0 ∨ (∃ px py, s.spriteCovers x y n px py = true ∧ Display.pixel s.fb px py = false) →
      (u.v[15] = 1 ↔ 0 < s.spriteBits n)) ∧
    ((∀ px py, s.spriteCovers x y n px py = true → Display.pixel s.fb px py = true) → u.v[15] = 0)) ∧
  (∀ (x y : Reg) (n : RowCount) (s t : State), (n = 0 ∨ s.i.toNat + n.val - 1 ≤ 0xFFF) →
    exec (.drw x y n) s = .next t →
    ((Finset.univ : Finset (Fin 64 × Fin 32)).filter
      (fun p => Display.pixel t.fb p.1 p.2 ≠ Display.pixel s.fb p.1 p.2)).card = s.spriteBits n) ∧
  (∀ (x y x' y' : Reg) (n : RowCount) (s s' t t' : State), (n = 0 ∨ s.i.toNat + n.val - 1 ≤ 0xFFF) →
    (n = 0 ∨ s'.i.toNat + n.val - 1 ≤ 0xFFF) → s.fb = s'.fb →
    (∀ r < n.val, s.mem.read (s.i.toNat + r) = s'.mem.read (s'.i.toNat + r)) →
    (s.v[x]).toNat % 64 = (s'.v[x']).toNat % 64 → (s.v[y]).toNat % 32 = (s'.v[y']).toNat % 32 →
    exec (.drw x y n) s = .next t → exec (.drw x' y' n) s' = .next t' → t.fb = t'.fb)
end

