-- ==== Sys2Proof/Laws/Decode.lean ====
section
/-! SUPPORT. The laws of the decoder: no word matches two rows, what `decode` answers, and the fields of an
encoded word. -/

namespace Sys2Proof

/-- Two rows never fix the same bits alike, so no word matches both (R76: "pairwise disjoint"). -/
theorem opcodeMap_disjoint :
    opcodeMap.Pairwise (fun p q => p.pattern &&& q.mask ≠ q.pattern &&& p.mask) := by decide

theorem OpcodeRow.accepts_iff (r : OpcodeRow) (w : Word) : r.accepts w = true ↔ w &&& r.mask = r.pattern := by
  simp [OpcodeRow.accepts]

theorem accepts_exclusive {p q : OpcodeRow} (h : p.pattern &&& q.mask ≠ q.pattern &&& p.mask) {w : Word}
    (hp : p.accepts w = true) : q.accepts w = false := by
  refine Bool.eq_false_iff.mpr fun hq => h ?_
  rw [OpcodeRow.accepts_iff] at hp hq
  rw [← hp, ← hq, BitVec.and_assoc, BitVec.and_assoc, BitVec.and_comm p.mask]

theorem find?_of_disjoint {rows : List OpcodeRow} {r : OpcodeRow} {w : Word}
    (hd : rows.Pairwise (fun p q => p.pattern &&& q.mask ≠ q.pattern &&& p.mask)) (hr : r ∈ rows)
    (hw : r.accepts w = true) : rows.find? (fun r => r.accepts w) = some r := by
  induction rows with
  | nil => simp at hr
  | cons p rows ih =>
    have hd' := List.pairwise_cons.mp hd
    rcases List.mem_cons.mp hr with rfl | hr
    · simp [hw]
    · have hp : p.accepts w = false := accepts_exclusive (fun e => hd'.1 r hr e.symm) hw
      simpa [hp] using ih hd'.2 hr

/-- A word that matches a row is that row's instruction. -/
theorem decode_of_row {r : OpcodeRow} {w : Word} (hr : r ∈ opcodeMap) (hw : w &&& r.mask = r.pattern) :
    decode w = r.build w := by
  simp only [decode, find?_of_disjoint opcodeMap_disjoint hr ((r.accepts_iff w).mpr hw)]

/-- A word that matches no row is UNDEF. -/
theorem decode_of_no_row {w : Word} (h : ∀ r ∈ opcodeMap, w &&& r.mask ≠ r.pattern) : decode w = .undef w := by
  have : opcodeMap.find? (fun r => r.accepts w) = none :=
    List.find?_eq_none.mpr fun r hr => by simpa [OpcodeRow.accepts_iff] using h r hr
  simp only [decode, this]

/-- Everything `decode` can answer. -/
theorem decode_cases (w : Word) :
    (∃ r ∈ opcodeMap, w &&& r.mask = r.pattern ∧ decode w = r.build w) ∨
    ((∀ r ∈ opcodeMap, w &&& r.mask ≠ r.pattern) ∧ decode w = .undef w) := by
  by_cases h : ∃ r ∈ opcodeMap, w &&& r.mask = r.pattern
  · obtain ⟨r, hr, hw⟩ := h
    exact .inl ⟨r, hr, hw, decode_of_row hr hw⟩
  · refine .inr ⟨fun r hr e => h ⟨r, hr, e⟩, decode_of_no_row fun r hr e => h ⟨r, hr, e⟩⟩

/-- Which words decode to an instruction of a given row: those the row accepts, with the instruction's operands in their
fields. `hi` says that only the row's constructor can build the instruction. -/
theorem decode_eq_iff {r : OpcodeRow} (hr : r ∈ opcodeMap) {i : Instr}
    (hi : ∀ q ∈ opcodeMap, ∀ w, q.build w = i → q.mask = r.mask ∧ q.pattern = r.pattern)
    (hu : ∀ w, i ≠ .undef w) (w : Word) : decode w = i ↔ w &&& r.mask = r.pattern ∧ r.build w = i := by
  constructor
  · intro h
    rcases decode_cases w with ⟨q, hq, hw, hd⟩ | ⟨_, hd⟩
    · obtain ⟨hm, hp⟩ := hi q hq w (hd.symm.trans h)
      have hw' : w &&& r.mask = r.pattern := by rw [← hm, ← hp]; exact hw
      exact ⟨hw', (decode_of_row hr hw').symm.trans h⟩
    · exact absurd (h.symm.trans hd) (hu w)
  · rintro ⟨hw, hb⟩
    exact (decode_of_row hr hw).trans hb

/-! ## Masks, fields and encodings as arithmetic on the word's value -/

theorem and_eq_split {w m p m₁ m₂ : Word} (hm : m₁ ||| m₂ = m) (hp : p &&& m = p) :
    w &&& m = p ↔ w &&& m₁ = p &&& m₁ ∧ w &&& m₂ = p &&& m₂ := by
  constructor
  · intro h
    subst hm
    rw [← h]
    constructor <;> (ext k hk; simp; cases w[k] <;> cases m₁[k] <;> cases m₂[k] <;> rfl)
  · rintro ⟨h₁, h₂⟩
    rw [← hm, BitVec.and_or_distrib_left, h₁, h₂, ← BitVec.and_or_distrib_left, hm, hp]

theorem and_family_toNat (w : Word) : (w &&& 0xF000).toNat = w.toNat / 4096 * 4096 := by
  have h : w &&& (0xF000 : Word) = (w >>> 12) <<< 12 := by
    ext k hk
    have : k = 0 ∨ k = 1 ∨ k = 2 ∨ k = 3 ∨ k = 4 ∨ k = 5 ∨ k = 6 ∨ k = 7 ∨ k = 8 ∨ k = 9 ∨ k = 10 ∨ k = 11 ∨
      k = 12 ∨ k = 13 ∨ k = 14 ∨ k = 15 := by omega
    rcases this with rfl | rfl | rfl | rfl | rfl | rfl | rfl | rfl | rfl | rfl | rfl | rfl | rfl | rfl | rfl | rfl <;>
      simp
  rw [h]
  have := w.isLt
  simp [BitVec.toNat_shiftLeft, BitVec.toNat_ushiftRight, Nat.shiftLeft_eq, Nat.shiftRight_eq_div_pow]
  omega

theorem and_low4_toNat (w : Word) : (w &&& 0x000F).toNat = w.toNat % 16 := by
  rw [BitVec.toNat_and]; exact Nat.and_two_pow_sub_one_eq_mod w.toNat 4

theorem and_low8_toNat (w : Word) : (w &&& 0x00FF).toNat = w.toNat % 256 := by
  rw [BitVec.toNat_and]; exact Nat.and_two_pow_sub_one_eq_mod w.toNat 8

/-- Mask 0xF000 fixes the family nibble. -/
theorem mask_F000 (w : Word) {p : Word} (hp : p &&& 0xF000 = p) :
    w &&& 0xF000 = p ↔ w.toNat / 4096 = p.toNat / 4096 := by
  conv_lhs => rw [← hp]
  rw [← BitVec.toNat_inj, and_family_toNat, and_family_toNat]
  omega

/-- Mask 0xF00F fixes the family nibble and the low nibble. -/
theorem mask_F00F (w : Word) {p : Word} (hp : p &&& 0xF00F = p) :
    w &&& 0xF00F = p ↔ w.toNat / 4096 = p.toNat / 4096 ∧ w.toNat % 16 = p.toNat % 16 := by
  rw [and_eq_split (m := 0xF00F) (m₁ := 0xF000) (m₂ := 0x000F) rfl hp, ← BitVec.toNat_inj, ← BitVec.toNat_inj, and_family_toNat,
    and_family_toNat, and_low4_toNat, and_low4_toNat]
  omega

/-- Mask 0xF0FF fixes the family nibble and the low byte. -/
theorem mask_F0FF (w : Word) {p : Word} (hp : p &&& 0xF0FF = p) :
    w &&& 0xF0FF = p ↔ w.toNat / 4096 = p.toNat / 4096 ∧ w.toNat % 256 = p.toNat % 256 := by
  rw [and_eq_split (m := 0xF0FF) (m₁ := 0xF000) (m₂ := 0x00FF) rfl hp, ← BitVec.toNat_inj, ← BitVec.toNat_inj, and_family_toNat,
    and_family_toNat, and_low8_toNat, and_low8_toNat]
  omega

/-- Mask 0xFFFF fixes the whole word. -/
theorem mask_FFFF (w p : Word) : w &&& 0xFFFF = p ↔ w.toNat = p.toNat := by
  rw [show (0xFFFF : Word) = BitVec.allOnes 16 from rfl, BitVec.and_allOnes, ← BitVec.toNat_inj]

theorem fieldX_val (w : Word) : (fieldX w).val = w.toNat / 256 % 16 := by
  simp [fieldX, Nat.shiftRight_eq_div_pow]

theorem fieldY_val (w : Word) : (fieldY w).val = w.toNat / 16 % 16 := by
  simp [fieldY, Nat.shiftRight_eq_div_pow]

theorem fieldN_val (w : Word) : (fieldN w).val = w.toNat % 16 := by
  simp [fieldN]

theorem fieldNN_toNat (w : Word) : (fieldNN w).toNat = w.toNat % 256 := by
  simp [fieldNN]

theorem fieldNNN_toNat (w : Word) : (fieldNNN w).toNat = w.toNat % 4096 := by
  simp [fieldNNN]

theorem append_toNat {m n : Nat} (a : BitVec m) (b : BitVec n) : (a ++ b).toNat = a.toNat * 2 ^ n + b.toNat := by
  rw [BitVec.toNat_append, ← Nat.shiftLeft_add_eq_or_of_lt b.isLt, Nat.shiftLeft_eq]

theorem encodeA_toNat (f : BitVec 4) (nnn : Addr12) : (encodeA f nnn).toNat = f.toNat * 4096 + nnn.toNat :=
  append_toNat f nnn

theorem reg_toNat (x : Reg) : (BitVec.ofFin (w := 4) x).toNat = x.val := rfl

theorem encodeXI_toNat (f : BitVec 4) (x : Reg) (nn : Byte) :
    (encodeXI f x nn).toNat = f.toNat * 4096 + x.val * 256 + nn.toNat := by
  have h : (encodeXI f x nn).toNat = (f.toNat * 2 ^ 4 + x.val) * 2 ^ 8 + nn.toNat :=
    (append_toNat _ nn).trans (by rw [append_toNat, reg_toNat x])
  rw [h]; ring

theorem encodeXY_toNat (f : BitVec 4) (x y : Reg) (n : BitVec 4) :
    (encodeXY f x y n).toNat = f.toNat * 4096 + x.val * 256 + y.val * 16 + n.toNat := by
  have h : (encodeXY f x y n).toNat = ((f.toNat * 2 ^ 4 + x.val) * 2 ^ 4 + y.val) * 2 ^ 4 + n.toNat :=
    (append_toNat _ n).trans (by rw [append_toNat, append_toNat, reg_toNat x, reg_toNat y])
  rw [h]; ring

/-! ## An encoded word has its family's pattern and its operands' fields -/

theorem encodeA_mask (f : BitVec 4) (nnn : Addr12) {p : Word} (hp : p &&& 0xF000 = p)
    (hf : f.toNat = p.toNat / 4096) : encodeA f nnn &&& 0xF000 = p := by
  rw [mask_F000 _ hp, encodeA_toNat]; omega

theorem encodeXI_mask_family (f : BitVec 4) (x : Reg) (nn : Byte) {p : Word} (hp : p &&& 0xF000 = p)
    (hf : f.toNat = p.toNat / 4096) : encodeXI f x nn &&& 0xF000 = p := by
  rw [mask_F000 _ hp, encodeXI_toNat]; omega

theorem encodeXI_mask_byte (f : BitVec 4) (x : Reg) (nn : Byte) {p : Word} (hp : p &&& 0xF0FF = p)
    (hf : f.toNat = p.toNat / 4096) (hn : nn.toNat = p.toNat % 256) : encodeXI f x nn &&& 0xF0FF = p := by
  rw [mask_F0FF _ hp, encodeXI_toNat]; omega

theorem encodeXY_mask_family (f : BitVec 4) (x y : Reg) (n : BitVec 4) {p : Word} (hp : p &&& 0xF000 = p)
    (hf : f.toNat = p.toNat / 4096) : encodeXY f x y n &&& 0xF000 = p := by
  rw [mask_F000 _ hp, encodeXY_toNat]; omega

theorem encodeXY_mask_nibble (f : BitVec 4) (x y : Reg) (n : BitVec 4) {p : Word} (hp : p &&& 0xF00F = p)
    (hf : f.toNat = p.toNat / 4096) (hn : n.toNat = p.toNat % 16) : encodeXY f x y n &&& 0xF00F = p := by
  rw [mask_F00F _ hp, encodeXY_toNat]; omega

@[simp] theorem fieldNNN_encodeA (f : BitVec 4) (nnn : Addr12) : fieldNNN (encodeA f nnn) = nnn := by
  apply BitVec.eq_of_toNat_eq; rw [fieldNNN_toNat, encodeA_toNat]; omega

@[simp] theorem fieldX_encodeXI (f : BitVec 4) (x : Reg) (nn : Byte) : fieldX (encodeXI f x nn) = x := by
  apply Fin.eq_of_val_eq; rw [fieldX_val, encodeXI_toNat]; omega

@[simp] theorem fieldNN_encodeXI (f : BitVec 4) (x : Reg) (nn : Byte) : fieldNN (encodeXI f x nn) = nn := by
  apply BitVec.eq_of_toNat_eq; rw [fieldNN_toNat, encodeXI_toNat]; omega

@[simp] theorem fieldX_encodeXY (f : BitVec 4) (x y : Reg) (n : BitVec 4) : fieldX (encodeXY f x y n) = x := by
  apply Fin.eq_of_val_eq; rw [fieldX_val, encodeXY_toNat]; omega

@[simp] theorem fieldY_encodeXY (f : BitVec 4) (x y : Reg) (n : BitVec 4) : fieldY (encodeXY f x y n) = y := by
  apply Fin.eq_of_val_eq; rw [fieldY_val, encodeXY_toNat]; omega

@[simp] theorem fieldN_encodeXY (f : BitVec 4) (x y : Reg) (n : BitVec 4) :
    fieldN (encodeXY f x y n) = n.toFin := by
  apply Fin.eq_of_val_eq; rw [fieldN_val, encodeXY_toNat]
  show _ = n.toNat
  omega

/-- UNDEF's words are those no row accepts (R77). -/
theorem no_row_of_unrecognised {w : Word} (h : unrecognised w = true) :
    ∀ r ∈ opcodeMap, w &&& r.mask ≠ r.pattern := by
  intro r hr e
  have hf : (w.extractLsb' 12 4).toNat = w.toNat / 4096 := by
    have := w.isLt
    simp [Nat.shiftRight_eq_div_pow]; omega
  have hn : (w.extractLsb' 0 4).toNat = w.toNat % 16 := by simp
  have hnn : (w.extractLsb' 0 8).toNat = w.toNat % 256 := by simp
  simp only [opcodeMap, rowsZA, rowsXI, rowsXY, rowsXF, List.cons_append, List.nil_append, List.mem_cons,
    List.not_mem_nil, or_false] at hr
  rcases hr with rfl | rfl | rfl | rfl | rfl | rfl | rfl | rfl | rfl | rfl | rfl | rfl | rfl | rfl | rfl | rfl | rfl |
    rfl | rfl | rfl | rfl | rfl | rfl | rfl | rfl | rfl | rfl | rfl | rfl | rfl | rfl | rfl | rfl | rfl
  all_goals
    first
      | rw [mask_FFFF] at e
      | rw [mask_F000 _ rfl] at e
      | rw [mask_F00F _ rfl] at e
      | rw [mask_F0FF _ rfl] at e
    simp [unrecognised, hf, ← BitVec.toNat_inj, hn, hnn, e] at h

end Sys2Proof
end

