-- ==== Sys2Proof/Laws/Memory.lean ====
section
/-! SUPPORT. The laws of memory: what a read gives after a write, and that every write keeps the canonical form. -/

namespace Sys2Proof.Machine

theorem Memory.lookup_cons_ne (m : Memory) {k : Nat} {c : Host.Cell} (h : k ≠ c.1) :
    List.lookup k (c :: m) = List.lookup k m := by
  simp [List.lookup, beq_eq_false_iff_ne.mpr h]

theorem Memory.lookup_forget_self (m : Memory) (a : Nat) : (Memory.forget m a).lookup a = none := by
  induction m with
  | nil => rfl
  | cons c m ih =>
    by_cases h : c.1 = a
    · rw [show Memory.forget (c :: m) a = Memory.forget m a by simp [Memory.forget, h]]; exact ih
    · rw [show Memory.forget (c :: m) a = c :: Memory.forget m a by simp [Memory.forget, h],
        Memory.lookup_cons_ne _ (Ne.symm h)]
      exact ih

theorem Memory.lookup_forget_other (m : Memory) {a k : Nat} (hk : k ≠ a) :
    (Memory.forget m a).lookup k = m.lookup k := by
  induction m with
  | nil => rfl
  | cons c m ih =>
    by_cases h : c.1 = a
    · rw [show Memory.forget (c :: m) a = Memory.forget m a by simp [Memory.forget, h],
        Memory.lookup_cons_ne _ (by omega)]
      exact ih
    · rw [show Memory.forget (c :: m) a = c :: Memory.forget m a by simp [Memory.forget, h]]
      simp only [List.lookup, ih]

theorem Memory.lookup_place_self (m : Memory) (a : Nat) (b : Byte) (h : m.lookup a = none) :
    (Memory.place m a b).lookup a = some b := by
  induction m with
  | nil => simp [Memory.place]
  | cons c m ih =>
    obtain ⟨a', b'⟩ := c
    by_cases e : a = a'
    · subst e; simp at h
    · simp only [List.lookup_cons, beq_eq_false_iff_ne.mpr e] at h
      unfold Memory.place
      split
      · simp
      · simpa [List.lookup_cons, beq_eq_false_iff_ne.mpr e] using ih h

theorem Memory.lookup_place_other (m : Memory) {a k : Nat} (b : Byte) (hk : k ≠ a) :
    (Memory.place m a b).lookup k = m.lookup k := by
  induction m with
  | nil => simp [Memory.place, List.lookup_cons, beq_eq_false_iff_ne.mpr hk]
  | cons c m ih =>
    unfold Memory.place
    split
    · simp [List.lookup_cons, beq_eq_false_iff_ne.mpr hk]
    · obtain ⟨a', b'⟩ := c
      simp [List.lookup_cons, ih]

/-- A byte reads as it was last written. -/
theorem Memory.read_write_self (m : Memory) {a : Nat} (b : Byte) (ha : a ≤ 0xFFF) :
    (Memory.write m a b).read a = b := by
  unfold Memory.write Memory.read
  rw [if_neg (by omega)]
  split
  · next h => rw [Memory.lookup_forget_self]; exact h.symm
  · rw [Memory.lookup_place_self _ _ _ (Memory.lookup_forget_self m a)]; rfl

/-- A write leaves every other byte alone. -/
theorem Memory.read_write_other (m : Memory) {a k : Nat} (b : Byte) (hk : k ≠ a) :
    (Memory.write m a b).read k = m.read k := by
  unfold Memory.write Memory.read
  split
  · rfl
  · split
    · rw [Memory.lookup_forget_other m hk]
    · rw [Memory.lookup_place_other _ _ hk, Memory.lookup_forget_other m hk]

/-- Bytes outside a written range read as before. -/
theorem Memory.read_writeBytes_outside (m : Memory) (a k : Nat) (bs : List Byte)
    (hk : k < a ∨ a + bs.length ≤ k) : (Memory.writeBytes m a bs).read k = m.read k := by
  induction bs generalizing m a with
  | nil => rfl
  | cons b bs ih =>
    simp only [List.length_cons] at hk
    rw [Memory.writeBytes, ih _ _ (by omega), Memory.read_write_other _ _ (by omega)]

/-- Bytes inside a written range read as written. -/
theorem Memory.read_writeBytes_inside (m : Memory) (a k : Nat) (bs : List Byte) (hk : k < bs.length)
    (ha : a + bs.length ≤ 0x1000) : (Memory.writeBytes m a bs).read (a + k) = bs[k] := by
  induction bs generalizing m a k with
  | nil => simp at hk
  | cons b bs ih =>
    simp only [List.length_cons] at hk ha
    rw [Memory.writeBytes]
    cases k with
    | zero =>
      rw [Memory.read_writeBytes_outside _ _ _ _ (by omega)]
      exact Memory.read_write_self m b (by omega)
    | succ k =>
      have h := ih (Memory.write m a b) (a + 1) k (by omega) (by omega)
      rw [show a + (k + 1) = a + 1 + k by omega]
      simpa using h

@[simp] theorem Memory.readBytes_length (m : Memory) (a n : Nat) : (m.readBytes a n).length = n := by
  induction n generalizing a with
  | zero => rfl
  | succ n ih => simp [Memory.readBytes, ih]

theorem Memory.readBytes_getElem (m : Memory) (a n k : Nat) (hk : k < (m.readBytes a n).length) :
    (m.readBytes a n)[k] = m.read (a + k) := by
  induction n generalizing a k with
  | zero => simp [Memory.readBytes] at hk
  | succ n ih =>
    cases k with
    | zero => rfl
    | succ k =>
      simp only [Memory.readBytes, List.getElem_cons_succ]
      rw [ih]
      congr 1; omega

/-! ## The canonical form -/

theorem Memory.forget_wf {m : Memory} (h : m.wf) (a : Nat) : (Memory.forget m a).wf :=
  ⟨h.1.filter _, fun c hc => h.2 c (List.mem_of_mem_filter hc)⟩

theorem Memory.mem_place {m : Memory} {a : Nat} {b : Byte} {c : Host.Cell} (h : c ∈ Memory.place m a b) :
    c = (a, b) ∨ c ∈ m := by
  induction m with
  | nil => simpa [Memory.place] using h
  | cons d m ih =>
    unfold Memory.place at h
    split at h
    · simpa using h
    · rcases List.mem_cons.mp h with rfl | h
      · simp
      · rcases ih h with h | h <;> simp [h]

theorem Memory.place_wf {m : Memory} (h : m.wf) {a : Nat} {b : Byte} (hm : ∀ c ∈ m, c.1 ≠ a) (ha : a ≤ 0xFFF)
    (hb : b ≠ Memory.resetByte a) : (Memory.place m a b).wf := by
  constructor
  · replace h := h.1
    induction m with
    | nil => simp [Memory.place]
    | cons d m ih =>
      have hd := List.pairwise_cons.mp h
      unfold Memory.place
      split
      · next hlt =>
        refine List.pairwise_cons.mpr ⟨fun c hc => ?_, h⟩
        rcases List.mem_cons.mp hc with rfl | hc
        · exact hlt
        · exact Nat.lt_trans hlt (hd.1 c hc)
      · next hge =>
        refine List.pairwise_cons.mpr ⟨fun c hc => ?_, ih (fun c hc => hm c (List.mem_cons_of_mem _ hc)) hd.2⟩
        rcases Memory.mem_place hc with rfl | hc
        · have := hm d List.mem_cons_self
          simp only; omega
        · exact hd.1 c hc
  · intro c hc
    rcases Memory.mem_place hc with rfl | hc
    · exact ⟨ha, hb⟩
    · exact h.2 c hc

/-- A write keeps the canonical form. -/
theorem Memory.write_wf {m : Memory} (h : m.wf) (a : Nat) (b : Byte) : (Memory.write m a b).wf := by
  unfold Memory.write
  split
  · exact h
  · split
    · exact Memory.forget_wf h a
    · next ha hb =>
      refine Memory.place_wf (Memory.forget_wf h a) (fun c hc => ?_) (by omega) hb
      simpa using (List.mem_filter.mp hc).2

/-- So do several writes. -/
theorem Memory.writeBytes_wf {m : Memory} (h : m.wf) (a : Nat) (bs : List Byte) : (Memory.writeBytes m a bs).wf := by
  induction bs generalizing m a with
  | nil => exact h
  | cons b bs ih => exact ih (Memory.write_wf h a b) (a + 1)

end Sys2Proof.Machine
end

