-- ==== Sys2Proof/Laws/Display.lean ====
section
/-! SUPPORT. What drawing a sprite leaves in the display buffer and in the collision flag
(spec/45_display.md R142, R143): the loops of the model as one statement about cells. -/

namespace Sys2Proof.Machine

/-- One toggle changes one cell. -/
theorem Display.pixel_toggle (d : Display) (x px : Fin 64) (y py : Fin 32) :
    Display.pixel (Display.toggle d x y) px py = (Display.pixel d px py ^^ decide ((px, py) = (x, y))) := by
  have hpx := px.isLt
  by_cases hy : py = y
  · subst hy
    by_cases hx : px = x
    · subst hx; simp [Display.pixel, Display.toggle]
    · have hne : x.val ≠ px.val := fun e => hx (Fin.eq_of_val_eq e.symm)
      by_cases hlt : px.val < x.val
      · simp [Display.pixel, Display.toggle, hx, hlt]
      · have h1 : ¬ (px.val - x.val = 0) := by omega
        simp [Display.pixel, Display.toggle, hx, hlt, h1]
  · have hv : y.val ≠ py.val := fun e => hy (Fin.eq_of_val_eq e.symm)
    simp [Display.pixel, Display.toggle, hy, hv]

/-- Two displays are equal iff they agree on every cell. -/
theorem Display.ext_pixel {d e : Display} (h : ∀ x y, Display.pixel d x y = Display.pixel e x y) : d = e := by
  apply Vector.ext
  intro k hk
  apply BitVec.eq_of_getLsbD_eq
  intro c hc
  exact h ⟨c, hc⟩ ⟨k, hk⟩

/-- The cells on which the 1 bits of one sprite row land. -/
def rowCells (x0 : Nat) (y : Fin 32) (b : Byte) : List (Fin 64 × Fin 32) :=
  ((List.range 8).filter (fun k => b.getLsbD (7 - k))).map (fun k => (Fin.ofNat 64 (x0 + k), y))

/-- The cells on which the 1 bits of a sprite land. -/
def spriteCells (x0 : Nat) (y : Nat) : List Byte → List (Fin 64 × Fin 32)
  | [] => []
  | b :: bs => rowCells x0 (Fin.ofNat 32 y) b ++ spriteCells x0 (y + 1) bs

/-- Toggling a list of cells, one after another. -/
def drawCells (ps : List (Fin 64 × Fin 32)) (c : Canvas) : Canvas :=
  ps.foldl (fun c p => drawPixel p.1 p.2 c) c

theorem drawRow_eq_drawCells (x0 : Nat) (y : Fin 32) (b : Byte) (c : Canvas) :
    drawRow x0 y b c = drawCells (rowCells x0 y b) c := by
  simp [drawRow, drawCells, rowCells, List.foldl_map, List.foldl_filter]

theorem drawRows_eq_drawCells (x0 y : Nat) (bs : List Byte) (c : Canvas) :
    drawRows x0 y bs c = drawCells (spriteCells x0 y bs) c := by
  induction bs generalizing y c with
  | nil => rfl
  | cons b bs ih => simp [drawRows, spriteCells, ih, drawRow_eq_drawCells, drawCells, List.foldl_append]

/-- Which cells the 1 bits of a sprite land on (R141, R142). -/
theorem mem_spriteCells (x0 y : Nat) (bs : List Byte) (p : Fin 64 × Fin 32) :
    p ∈ spriteCells x0 y bs ↔ ∃ r, ∃ h : r < bs.length, ∃ k < 8, bs[r].getLsbD (7 - k) = true ∧
      p = (Fin.ofNat 64 (x0 + k), Fin.ofNat 32 (y + r)) := by
  induction bs generalizing y with
  | nil => simp [spriteCells]
  | cons b bs ih =>
    simp only [spriteCells, List.mem_append, ih, rowCells, List.mem_map, List.mem_filter, List.mem_range]
    constructor
    · rintro (⟨k, ⟨hk, hb⟩, rfl⟩ | ⟨r, hr, k, hk, hb, rfl⟩)
      · exact ⟨0, by simp, k, hk, hb, rfl⟩
      · exact ⟨r + 1, by simpa using hr, k, hk, hb, by rw [Nat.add_right_comm]; rfl⟩
    · rintro ⟨r, hr, k, hk, hb, rfl⟩
      cases r with
      | zero => exact .inl ⟨k, ⟨hk, hb⟩, rfl⟩
      | succ r => exact .inr ⟨r, by simpa using hr, k, hk, hb, by rw [Nat.add_right_comm]; rfl⟩

/-- No two 1 bits of a sprite of at most 32 rows land on the same cell (R142). -/
theorem spriteCells_nodup (x0 y : Nat) (bs : List Byte) (h : bs.length ≤ 32) : (spriteCells x0 y bs).Nodup := by
  induction bs generalizing y with
  | nil => simp [spriteCells]
  | cons b bs ih =>
    simp only [List.length_cons] at h
    rw [spriteCells, List.nodup_append]
    refine ⟨?_, ih (y + 1) (by omega), ?_⟩
    · unfold rowCells
      refine List.Nodup.map_on ?_ (List.Nodup.filter _ List.nodup_range)
      intro j hj k hk e
      simp only [List.mem_filter, List.mem_range] at hj hk
      simp only [Prod.mk.injEq, Fin.ext_iff, Fin.val_ofNat, and_true] at e
      omega
    · intro p hp q hq e
      subst e
      simp only [rowCells, List.mem_map] at hp
      obtain ⟨k, -, rfl⟩ := hp
      obtain ⟨r, hr, _, -, -, e⟩ := (mem_spriteCells _ _ _ _).mp hq
      simp only [Prod.mk.injEq, Fin.ext_iff, Fin.val_ofNat] at e
      omega

/-- Toggling distinct cells: each of them changes once, and there is a hit iff one of them held 1 (R143). -/
theorem drawCells_spec (ps : List (Fin 64 × Fin 32)) (hps : ps.Nodup) (c : Canvas) :
    (∀ px py, Display.pixel (drawCells ps c).fb px py = (Display.pixel c.fb px py ^^ decide ((px, py) ∈ ps))) ∧
    (drawCells ps c).hit = (c.hit || ps.any (fun p => Display.pixel c.fb p.1 p.2)) := by
  induction ps generalizing c with
  | nil => simp [drawCells]
  | cons p ps ih =>
    obtain ⟨hp, hps⟩ := List.nodup_cons.mp hps
    obtain ⟨ihpix, ihhit⟩ := ih hps (drawPixel p.1 p.2 c)
    have hc : drawCells (p :: ps) c = drawCells ps (drawPixel p.1 p.2 c) := rfl
    constructor
    · intro px py
      rw [hc, ihpix]
      simp only [drawPixel, Display.pixel_toggle, List.mem_cons]
      by_cases e : (px, py) = p
      · subst e; simp [hp]
      · simp [e]
    · rw [hc, ihhit]
      simp only [drawPixel, List.any_cons, Bool.or_assoc]
      congr 2
      rw [Bool.eq_iff_iff, List.any_eq_true, List.any_eq_true]
      refine exists_congr fun q => and_congr_right fun hq => ?_
      have : q ≠ p := fun e => hp (e ▸ hq)
      simp [Display.pixel_toggle, this]

/-- A draw toggles exactly the cells its 1 bits land on, and there is a hit iff one of them held 1 (R142, R143). -/
theorem drawRows_spec (x0 y : Nat) (bs : List Byte) (h : bs.length ≤ 32) (fb : Display) :
    (∀ px py, Display.pixel (drawRows x0 y bs { fb := fb, hit := false }).fb px py =
      (Display.pixel fb px py ^^ decide ((px, py) ∈ spriteCells x0 y bs))) ∧
    (drawRows x0 y bs { fb := fb, hit := false }).hit =
      (spriteCells x0 y bs).any (fun p => Display.pixel fb p.1 p.2) := by
  rw [drawRows_eq_drawCells]
  simpa using drawCells_spec _ (spriteCells_nodup x0 y bs h) { fb := fb, hit := false }

end Sys2Proof.Machine
end

