-- ==== Sys2Proof/Laws/Ops.lean ====
section
/-! SUPPORT. What each shared operation can do, said once. -/

namespace Sys2Proof.Machine

/-! ## Arithmetic -/

@[simp] theorem sumByte_eq (a b : Byte) : sumByte a b = a + b := by
  apply BitVec.eq_of_toNat_eq; simp [sumByte]

@[simp] theorem differenceByte_eq (a b : Byte) : differenceByte a b = a - b := by
  apply BitVec.eq_of_toNat_eq
  rw [BitVec.toNat_sub, differenceByte, BitVec.toNat_ofInt]
  have := a.isLt; have := b.isLt
  omega

@[simp] theorem halfByte_toNat (a : Byte) : (halfByte a).toNat = a.toNat / 2 := by
  have := a.isLt
  simp [halfByte]; omega

@[simp] theorem doubleByte_toNat (a : Byte) : (doubleByte a).toNat = a.toNat * 2 % 256 := by
  simp [doubleByte]

theorem flagByte_bitOutRight_toNat (a : Byte) : (flagByte (bitOutRight a)).toNat = a.toNat % 2 := by
  have h : bitOutRight a = decide (a.toNat % 2 = 1) := by
    simp [bitOutRight, BitVec.getLsbD, Nat.testBit_zero]
  rw [h, flagByte]
  split <;> simp_all

theorem flagByte_bitOutLeft_toNat (a : Byte) : (flagByte (bitOutLeft a)).toNat = a.toNat / 128 := by
  have h : bitOutLeft a = decide (a.toNat / 128 % 2 = 1) := by
    rw [Bool.eq_iff_iff]
    simp [bitOutLeft, BitVec.getLsbD, Nat.testBit, Nat.shiftRight_eq_div_pow]
  have := a.isLt
  rw [h, flagByte]
  split <;> simp_all <;> omega

/-- A flag byte is 0 or 1. -/
theorem flagByte_cases (b : Bool) : flagByte b = 0 ∨ flagByte b = 1 := by cases b <;> simp [flagByte]

/-- The result, the flag and the advance as one update. -/
theorem State.setResultAndFlag_eq (s : State) (x : Reg) (b : Byte) (f : Bool) :
    s.setResultAndFlag x b f = { s with v := (s.v.set x b).set 15 (flagByte f), pc := s.pc + 2 } := rfl

@[simp] theorem State.setResultAndFlag_v (s : State) (x : Reg) (b : Byte) (f : Bool) :
    (s.setResultAndFlag x b f).v = (s.v.set x b).set 15 (flagByte f) := rfl
@[simp] theorem State.setResultAndFlag_pc (s : State) (x : Reg) (b : Byte) (f : Bool) :
    (s.setResultAndFlag x b f).pc = s.pc + 2 := rfl

/-! ## Faults and the checked access -/

@[simp] theorem raise_eq (c : FaultCause) (s : State) : raise c s = .next { s with fault := c.code } := rfl

theorem State.dataInRange_iff (s : State) (len : Nat) :
    s.dataInRange len = true ↔ len = 0 ∨ s.i.toNat + len - 1 ≤ 0xFFF := by
  cases len <;> simp [State.dataInRange, State.effectiveAddress]

/-- The two ways a checked access ends (R56, R57). -/
theorem withDataRange_cases (len : Nat) (s t : State) :
    ((len = 0 ∨ s.i.toNat + len - 1 ≤ 0xFFF) ∧ withDataRange len s t = .next t) ∨
    (1 ≤ len ∧ 0xFFF < s.i.toNat + len - 1 ∧ withDataRange len s t = .next { s with fault := 4 }) := by
  unfold withDataRange
  by_cases h : s.dataInRange len = true
  · exact .inl ⟨(s.dataInRange_iff len).mp h, by rw [if_pos h]⟩
  · refine .inr ?_
    have h' := mt (s.dataInRange_iff len).mpr h
    refine ⟨by omega, by omega, ?_⟩
    rw [if_neg h]; rfl

/-! ## The call stack -/

theorem State.push_some (s : State) (a : Word) {k : Fin 16} (h : s.sp = k.castSucc) :
    s.push a = some { s with stack := s.stack.set k a, sp := k.succ } := by
  have hv : s.sp.val = k.val := by rw [h]; rfl
  have hk := k.isLt
  unfold State.push
  rw [dif_pos (by omega)]
  simp only [Option.some.injEq, State.mk.injEq, hv, true_and, and_true]
  rfl

theorem State.push_none (s : State) (a : Word) (h : s.sp.val = 16) : s.push a = none := by
  unfold State.push; rw [dif_neg (by omega)]

theorem State.pop_some (s : State) {k : Fin 16} (h : s.sp.val = k.val + 1) :
    s.pop = some (s.stack[k], { s with sp := k.castSucc }) := by
  unfold State.pop
  rw [dif_neg (by omega)]
  simp [h, Fin.ext_iff]

theorem State.pop_none (s : State) (h : s.sp.val = 0) : s.pop = none := by
  unfold State.pop; rw [dif_pos h]

/-! ## Operands -/

theorem loadRegisters_getElem (v : Vector Byte 16) (k : Nat) (bs : List Byte) (j : Nat) (hj : j < 16) :
    (loadRegisters v k bs)[j] = if h : k ≤ j ∧ j < k + bs.length then bs[j - k] else v[j] := by
  induction bs generalizing v k with
  | nil => simp [loadRegisters]
  | cons b bs ih =>
    rw [loadRegisters, ih]
    simp only [List.length_cons]
    by_cases h1 : k + 1 ≤ j ∧ j < k + 1 + bs.length
    · rw [dif_pos h1, dif_pos (by omega)]
      have e : j - k = (j - (k + 1)) + 1 := by omega
      simp [e]
    · rw [dif_neg h1]
      by_cases h2 : k = j
      · subst h2; simp
      · rw [dif_neg (by omega), Vector.getElem_setIfInBounds, if_neg h2]

theorem State.registersTo_length (s : State) (x : Reg) : (s.registersTo x).length = x.val + 1 := by
  have := x.isLt
  simp [State.registersTo, registerCount]

theorem State.registersTo_getElem (s : State) (x : Reg) (k : Nat) (hk : k < (s.registersTo x).length) :
    (s.registersTo x)[k] = s.v[k]'(by have := s.registersTo_length x; omega) := by
  simp [State.registersTo]

theorem State.lowestKey_none (s : State) (h : ∀ k : Fin 16, s.key.getLsbD k.val = false) : s.lowestKey = none := by
  apply List.find?_eq_none.mpr
  intro k hk
  have := h ⟨k, by simpa using hk⟩
  simpa [State.keyDown] using this

theorem State.lowestKey_some (s : State) {k : Fin 16} (h : s.key.getLsbD k.val = true)
    (hj : ∀ j : Fin 16, j < k → s.key.getLsbD j.val = false) : s.lowestKey = some k.val := by
  have hk := k.isLt
  unfold State.lowestKey
  rw [List.find?_range_eq_some]
  refine ⟨h, by simp, fun j hjk => ?_⟩
  have := hj ⟨j, by omega⟩ hjk
  simpa [State.keyDown] using this

/-- No key is down iff the key bits are all 0. -/
theorem State.key_eq_zero_iff (s : State) : s.key = 0 ↔ ∀ k : Fin 16, s.key.getLsbD k.val = false := by
  constructor
  · intro h k; rw [h]; simp
  · intro h
    apply BitVec.eq_of_getLsbD_eq
    intro k hk
    simpa using h ⟨k, hk⟩

/-- The key-wait either finds no key down or the least one. -/
theorem State.lowestKey_cases (s : State) :
    (s.key = 0 ∧ s.lowestKey = none) ∨ ∃ k : Fin 16, s.key.getLsbD k.val = true ∧ s.key ≠ 0 ∧
      (∀ j : Fin 16, j < k → s.key.getLsbD j.val = false) ∧ s.lowestKey = some k.val := by
  by_cases h : s.key = 0
  · exact .inl ⟨h, s.lowestKey_none ((s.key_eq_zero_iff).mp h)⟩
  · refine .inr ?_
    have hex : ∃ k : Fin 16, s.key.getLsbD k.val = true := by
      by_contra hc
      exact h ((s.key_eq_zero_iff).mpr fun k => by simpa using fun e => hc ⟨k, e⟩)
    let p : Set (Fin 16) := fun k => s.key.getLsbD k.val = true
    obtain ⟨k, hk, hmin⟩ := WellFounded.has_min (r := (· < · : Fin 16 → Fin 16 → Prop)) wellFounded_lt p hex
    have hj : ∀ j : Fin 16, j < k → s.key.getLsbD j.val = false := by
      intro j hjk
      by_contra hc
      exact hmin j (show s.key.getLsbD j.val = true by simpa using hc) hjk
    exact ⟨k, hk, h, hj, s.lowestKey_some hk hj⟩

/-! ## The sprite -/

/-- The sprite's cells by the declarative description (R141, R142). -/
theorem State.spriteCovers_iff (s : State) (x y : Reg) (n : RowCount) (px : Fin 64) (py : Fin 32) :
    s.spriteCovers x y n px py = true ↔
      (px, py) ∈ spriteCells (s.reg x).toNat (s.reg y).toNat (s.readAtI n.val) := by
  rw [mem_spriteCells]
  simp only [State.spriteCovers, List.any_eq_true, List.mem_range, Bool.and_eq_true, beq_iff_eq, State.readAtI,
    Memory.readBytes_length, Memory.readBytes_getElem, State.effectiveAddress, State.reg_eq, Nat.add_zero,
    Prod.mk.injEq, Fin.ext_iff, Fin.val_ofNat]
  constructor
  · rintro ⟨r, hr, k, hk, hb, hx, hy⟩
    exact ⟨r, hr, k, hk, hb, hx.symm, hy.symm⟩
  · rintro ⟨r, hr, k, hk, hb, hx, hy⟩
    exact ⟨r, hr, k, hk, hb, hx.symm, hy.symm⟩

theorem spriteCells_length (x0 y : Nat) (bs : List Byte) : (spriteCells x0 y bs).length =
    (bs.map fun b => ((List.range 8).filter fun c => b.getLsbD (7 - c)).length).sum := by
  induction bs generalizing y with
  | nil => rfl
  | cons b bs ih => simp [spriteCells, rowCells, ih]

/-- A sprite's 1 bits, counted, are its cells, listed (R142, R144). -/
theorem State.spriteBits_eq (s : State) (x y : Reg) (n : RowCount) :
    s.spriteBits n = (spriteCells (s.reg x).toNat (s.reg y).toNat (s.readAtI n.val)).length := by
  have h : ∀ (a k : Nat), s.mem.readBytes a k = (List.range k).map (fun r => s.mem.read (a + r)) := fun a k =>
    List.ext_getElem (by simp) (fun r h₁ h₂ => by simp [Memory.readBytes_getElem])
  rw [spriteCells_length, State.readAtI, h]
  simp [State.spriteBits, State.effectiveAddress, Function.comp_def]

/-- What a draw leaves in FB and its collision flag (R142, R143). -/
theorem State.drawSprite_spec (s : State) (x y : Reg) (n : RowCount) :
    (∀ px py, Display.pixel (s.drawSprite x y n).fb px py =
      (Display.pixel s.fb px py ^^ s.spriteCovers x y n px py)) ∧
    ((s.drawSprite x y n).hit = true ↔
      ∃ px py, s.spriteCovers x y n px py = true ∧ Display.pixel s.fb px py = true) := by
  have hlen : (s.readAtI n.val).length ≤ 32 := by
    have := n.isLt
    simp [State.readAtI]; omega
  obtain ⟨hpix, hhit⟩ := drawRows_spec (s.reg x).toNat (s.reg y).toNat (s.readAtI n.val) hlen s.fb
  constructor
  · intro px py
    rw [show Display.pixel (s.drawSprite x y n).fb px py = _ from hpix px py]
    congr 1
    rw [Bool.eq_iff_iff, decide_eq_true_iff, s.spriteCovers_iff]
  · rw [show (s.drawSprite x y n).hit = _ from hhit, List.any_eq_true]
    simp only [s.spriteCovers_iff]
    exact ⟨fun ⟨p, hp, hq⟩ => ⟨p.1, p.2, hp, hq⟩, fun ⟨px, py, hp, hq⟩ => ⟨(px, py), hp, hq⟩⟩

end Sys2Proof.Machine
end

