-- ==== Sys2Proof/Laws/Exec.lean ====
section
/-! SUPPORT. What one instruction and one step can do: the faulting case and the completed case, each said once. -/

namespace Sys2Proof.Machine

theorem withDataRange_completes {len : Nat} {s : State} (t : State) (h : len = 0 ∨ s.i.toNat + len - 1 ≤ 0xFFF) :
    withDataRange len s t = .next t := by
  rcases withDataRange_cases len s t with ⟨_, e⟩ | ⟨_, _, _⟩
  · exact e
  · omega

theorem withDataRange_faults {len : Nat} {s : State} (t : State) (h : 1 ≤ len) (h' : 0xFFF < s.i.toNat + len - 1) :
    withDataRange len s t = .next { s with fault := 4 } := by
  rcases withDataRange_cases len s t with ⟨_, e⟩ | ⟨_, _, e⟩
  · omega
  · exact e

theorem skipOnKey_completes (wanted : Bool) {x : Reg} {s : State} (h : (s.v[x]).toNat < 16) :
    skipOnKey wanted x s = .next (s.skipIf (s.key.getLsbD (s.v[x]).toNat == wanted)) := by
  unfold skipOnKey; rw [if_neg (by simp only [State.reg]; omega)]

theorem skipOnKey_faults (wanted : Bool) {x : Reg} {s : State} (h : 16 ≤ (s.v[x]).toNat) :
    skipOnKey wanted x s = .next { s with fault := 5 } := by
  unfold skipOnKey; rw [if_pos (by simp only [State.reg]; omega)]; rfl

/-- An instruction that faults latches the code of its fault and does nothing else (R161, R165). -/
theorem exec_of_fault {i : Instr} {s : State} {c : FaultCause} (h : instructionFault i s = some c) :
    exec i s = .next { s with fault := c.code } := by
  cases i <;> simp only [instructionFault, reduceCtorEq, Option.ite_none_right_eq_some, Option.some.injEq] at h <;>
    obtain ⟨h, rfl⟩ := h
  case ret => simp only [exec, execRet, s.pop_none h]; rfl
  case call => simp only [exec, execCall, s.push_none _ h]; rfl
  case drw => exact withDataRange_faults _ h.1 h.2
  case skp => exact skipOnKey_faults _ h
  case sknp => exact skipOnKey_faults _ h
  case ldBVx => exact withDataRange_faults _ (by omega) (by omega)
  case ldMemVx => exact withDataRange_faults _ (Nat.le_add_left 1 _) (by simp only [registerCount]; omega)
  case ldVxMem => exact withDataRange_faults _ (Nat.le_add_left 1 _) (by simp only [registerCount]; omega)

/-- A step of a running machine that can fetch executes the fetched instruction (R70). -/
theorem step_of_running {s : State} (h : s.fault = 0) (hp : s.pc.toNat ≤ 0xFFE) :
    step s = exec (decode s.fetchWord) s := by
  simp [step, State.halted, State.fetchInRange, h, hp]

/-- A step of a halted machine (R162). -/
theorem step_of_halted {s : State} (h : s.fault ≠ 0) : step s = .next s := by
  simp only [step, State.halted, bne_iff_ne.mpr h, if_true]

/-- A step that cannot fetch (R56). -/
theorem step_of_unfetchable {s : State} (h : s.fault = 0) (hp : 0xFFE < s.pc.toNat) :
    step s = .next { s with fault := 1 } := by
  simp [step, State.halted, State.fetchInRange, h, FaultCause.code]; omega

/-! ## The Y nibble of the shifts (R80, under SHIFT_SOURCE = X) -/

theorem exec_shr_ignores_y (x y z : Reg) (s : State) : exec (.shr x y) s = exec (.shr x z) s := rfl

theorem exec_shl_ignores_y (x y z : Reg) (s : State) : exec (.shl x y) s = exec (.shl x z) s := rfl

/-! ## The ends of a run -/

@[simp] theorem RunEnd.reached_fault (s : State) (rest : List Transaction) :
    RunEnd.reached .fault s rest ↔ s.fault ≠ 0 := Iff.rfl
@[simp] theorem RunEnd.reached_selfJump (s : State) (rest : List Transaction) :
    RunEnd.reached .selfJump s rest ↔ s.atSelfJump := Iff.rfl
@[simp] theorem RunEnd.reached_hostStops (s : State) (rest : List Transaction) :
    RunEnd.reached .hostStops s rest ↔ Transaction.step ∉ rest := Iff.rfl

/-! ## The completed case of the instructions that can fault, and of the key-wait -/

theorem exec_ret_completes {s : State} {k : Fin 16} (h : s.sp.val = k.val + 1) :
    exec .ret s = .next { s with sp := k.castSucc, pc := s.stack[k] } := by
  simp only [exec, execRet, s.pop_some h]; rfl

theorem exec_call_completes (nnn : Addr12) {s : State} {k : Fin 16} (h : s.sp = k.castSucc) :
    exec (.call nnn) s = .next { s with stack := s.stack.set k (s.pc + 2), sp := k.succ, pc := addressWord nnn } := by
  simp only [exec, execCall, s.push_some _ h]; rfl

theorem exec_ldVxK_waits (x : Reg) {s : State} (h : s.key = 0) : exec (.ldVxK x) s = .next s := by
  simp only [exec, execLdVxK, s.lowestKey_none ((s.key_eq_zero_iff).mp h)]

theorem exec_ldVxK_completes (x : Reg) {s : State} {k : Fin 16} (h : s.lowestKey = some k.val) :
    exec (.ldVxK x) s = .next { s with v := s.v.set x (BitVec.ofNat 8 k.val), pc := s.pc + 2 } := by
  simp only [exec, execLdVxK, h]; rfl

theorem State.sp_is_castSucc (s : State) (h : s.sp.val ≠ 16) : ∃ k : Fin 16, s.sp = k.castSucc :=
  ⟨⟨s.sp.val, by have := s.sp.isLt; omega⟩, rfl⟩

theorem State.sp_is_succ (s : State) (h : s.sp.val ≠ 0) : ∃ k : Fin 16, s.sp.val = k.val + 1 :=
  ⟨⟨s.sp.val - 1, by have := s.sp.isLt; omega⟩, by simp; omega⟩

/-- What a completed instruction leads to: for each constructor, all that it does (the last column of R35 refined by the
instruction's own rule). With `exec_of_fault` this is everything an instruction can do. -/
def CompletedState (i : Instr) (s t : State) : Prop :=
  match i with
  | .cls => t = (s.setFb Display.blank).advance
  | .ret => ∃ k : Fin 16, s.sp.val = k.val + 1 ∧ t = { s with sp := k.castSucc, pc := s.stack[k] }
  | .jp nnn => t = s.setPc (addressWord nnn)
  | .call nnn => ∃ k : Fin 16, s.sp = k.castSucc ∧
      t = { s with stack := s.stack.set k (s.pc + 2), sp := k.succ, pc := addressWord nnn }
  | .seImm x nn => t = s.skipIf (s.v[x] == nn)
  | .sneImm x nn => t = s.skipIf (s.v[x] != nn)
  | .seReg x y => t = s.skipIf (s.v[x] == s.v[y])
  | .ldImm x nn => t = (s.setReg x nn).advance
  | .addImm x nn => t = (s.setReg x (s.v[x] + nn)).advance
  | .ldReg x y => t = (s.setReg x s.v[y]).advance
  | .or x y => t = (s.setReg x (s.v[x] ||| s.v[y])).advance
  | .and x y => t = (s.setReg x (s.v[x] &&& s.v[y])).advance
  | .xor x y => t = (s.setReg x (s.v[x] ^^^ s.v[y])).advance
  | .addReg x y => t = s.setResultAndFlag x (s.v[x] + s.v[y]) (carryOut s.v[x] s.v[y])
  | .sub x y => t = s.setResultAndFlag x (s.v[x] - s.v[y]) (notBorrow s.v[x] s.v[y])
  | .shr x _ => t = s.setResultAndFlag x (halfByte s.v[x]) (bitOutRight s.v[x])
  | .subn x y => t = s.setResultAndFlag x (s.v[y] - s.v[x]) (notBorrow s.v[y] s.v[x])
  | .shl x _ => t = s.setResultAndFlag x (doubleByte s.v[x]) (bitOutLeft s.v[x])
  | .sneReg x y => t = s.skipIf (s.v[x] != s.v[y])
  | .ldI nnn => t = (s.setI (addressWord nnn)).advance
  | .jpV0 nnn => t = s.setPc (addressWord nnn + (s.v[0]).zeroExtend 16)
  | .rnd x nn => t = ((s.setReg x (Config.randomByte s.draws &&& nn)).drawn).advance
  | .drw x y n => (n.val = 0 ∨ s.i.toNat + n.val - 1 ≤ 0xFFF) ∧
      t = ((s.setFb (s.drawSprite x y n).fb).setReg vf (flagByte (s.drawSprite x y n).hit)).advance
  | .skp x => (s.v[x]).toNat < 16 ∧ t = s.skipIf (s.key.getLsbD (s.v[x]).toNat)
  | .sknp x => (s.v[x]).toNat < 16 ∧ t = s.skipIf (!s.key.getLsbD (s.v[x]).toNat)
  | .ldVxDt x => t = (s.setReg x s.dt).advance
  | .ldVxK x => (s.key = 0 ∧ t = s) ∨ ∃ k : Fin 16, s.key ≠ 0 ∧ s.lowestKey = some k.val ∧
      t = (s.setReg x (BitVec.ofNat 8 k.val)).advance
  | .ldDtVx x => t = (s.setDt s.v[x]).advance
  | .ldStVx x => t = (s.setSt s.v[x]).advance
  | .addIVx x => t = (s.setI (s.i + (s.v[x]).zeroExtend 16)).advance
  | .ldFVx x => ((s.v[x]).toNat < 16 ∧ t = (s.setI (glyphAddress s.v[x])).advance) ∨
      (16 ≤ (s.v[x]).toNat ∧ t = s.advance)
  | .ldBVx x => s.i.toNat + 2 ≤ 0xFFF ∧ t = (s.writeAtI (decimalDigits s.v[x])).advance
  | .ldMemVx x => s.i.toNat + x.val ≤ 0xFFF ∧ t = (s.writeAtI (s.registersTo x)).advance
  | .ldVxMem x => s.i.toNat + x.val ≤ 0xFFF ∧ t = (s.loadFromI x).advance
  | .undef _ => t = s.advance

/-- Every instruction that does not fault leads to its completed state. -/
theorem exec_of_no_fault {i : Instr} {s : State} (hf : instructionFault i s = none) :
    ∃ t, exec i s = .next t ∧ CompletedState i s t := by
  cases i <;> simp only [instructionFault, ite_eq_right_iff, reduceCtorEq, imp_false] at hf
  case ret =>
    obtain ⟨k, hk⟩ := s.sp_is_succ hf
    exact ⟨_, exec_ret_completes hk, k, hk, rfl⟩
  case call =>
    obtain ⟨k, hk⟩ := s.sp_is_castSucc hf
    exact ⟨_, exec_call_completes _ hk, k, hk, rfl⟩
  case drw =>
    simp only [exec, execDrw]
    rw [withDataRange_completes _ (by omega)]
    exact ⟨_, rfl, by omega, rfl⟩
  case skp =>
    simp only [exec, execSkp]
    rw [skipOnKey_completes _ (by omega)]
    exact ⟨_, rfl, by omega, by simp⟩
  case sknp =>
    simp only [exec, execSknp]
    rw [skipOnKey_completes _ (by omega)]
    exact ⟨_, rfl, by omega, by simp⟩
  case ldFVx x =>
    simp only [exec, execLdFVx, State.reg]
    by_cases h : (s.v[x]).toNat < 16
    · exact ⟨_, rfl, .inl ⟨h, by rw [if_pos h]⟩⟩
    · exact ⟨_, rfl, .inr ⟨by omega, by rw [if_neg h]⟩⟩
  case ldBVx =>
    simp only [exec, execLdBVx]
    rw [withDataRange_completes _ (by omega)]
    exact ⟨_, rfl, by omega, rfl⟩
  case ldMemVx =>
    simp only [exec, execLdMemVx]
    rw [withDataRange_completes _ (by simp only [registerCount]; omega)]
    exact ⟨_, rfl, by omega, rfl⟩
  case ldVxMem =>
    simp only [exec, execLdVxMem]
    rw [withDataRange_completes _ (by simp only [registerCount]; omega)]
    exact ⟨_, rfl, by omega, rfl⟩
  case ldVxK =>
    rcases s.lowestKey_cases with ⟨hk, _⟩ | ⟨k, _, hk, _, hl⟩
    · exact ⟨_, exec_ldVxK_waits _ hk, .inl ⟨hk, rfl⟩⟩
    · exact ⟨_, exec_ldVxK_completes _ hl, .inr ⟨k, hk, hl, rfl⟩⟩
  case addImm => exact ⟨_, rfl, by rw [sumByte_eq]; rfl⟩
  case addReg => exact ⟨_, rfl, by rw [sumByte_eq]; rfl⟩
  case sub => exact ⟨_, rfl, by rw [differenceByte_eq]; rfl⟩
  case subn => exact ⟨_, rfl, by rw [differenceByte_eq]; rfl⟩
  all_goals exact ⟨_, rfl, rfl⟩

/-- The two ways an instruction ends, said once: its fault latched and nothing else, or its completed state. -/
theorem exec_cases {i : Instr} {s t : State} (h : exec i s = .next t) :
    (∃ c, instructionFault i s = some c ∧ t = { s with fault := c.code }) ∨
    (instructionFault i s = none ∧ CompletedState i s t) := by
  cases hi : instructionFault i s with
  | some c =>
    rw [exec_of_fault hi] at h
    exact .inl ⟨c, rfl, (Host.Outcome.next.inj h).symm⟩
  | none =>
    obtain ⟨u, hu, hc⟩ := exec_of_no_fault hi
    rw [hu] at h
    exact .inr ⟨rfl, Host.Outcome.next.inj h ▸ hc⟩

end Sys2Proof.Machine
end

