-- ==== Sys2Proof/Laws/PerInstr.lean ====
section
/-! SUPPORT. The family RoundTrip: for each constructor of `Instr`, decoding its encoding gives it back. -/

namespace Sys2Proof.Laws.RoundTrip

/-- Decoding the encoding of a well-formed instruction gives it back (spec/30_encoding.md R73, R76). -/
def Statement (i : Instr) : Prop := i.wf = true → decode (encode i) = i

theorem cls : Statement .cls := by
  intro _; decide

theorem ret : Statement .ret := by
  intro _; decide

theorem jp (nnn : Addr12) : Statement (.jp nnn) :=
  fun _ => (decode_of_row (r := ⟨0xF000, 0x1000, fun w => .jp (fieldNNN w)⟩) (by simp [opcodeMap, rowsZA])
    (encodeA_mask _ _ rfl rfl)).trans (by simp)

theorem call (nnn : Addr12) : Statement (.call nnn) :=
  fun _ => (decode_of_row (r := ⟨0xF000, 0x2000, fun w => .call (fieldNNN w)⟩) (by simp [opcodeMap, rowsZA])
    (encodeA_mask _ _ rfl rfl)).trans (by simp)

theorem seImm (x : Reg) (nn : Byte) : Statement (.seImm x nn) :=
  fun _ => (decode_of_row (r := ⟨0xF000, 0x3000, fun w => .seImm (fieldX w) (fieldNN w)⟩) (by simp [opcodeMap, rowsXI])
    (encodeXI_mask_family _ _ _ rfl rfl)).trans (by simp)

theorem sneImm (x : Reg) (nn : Byte) : Statement (.sneImm x nn) :=
  fun _ => (decode_of_row (r := ⟨0xF000, 0x4000, fun w => .sneImm (fieldX w) (fieldNN w)⟩) (by simp [opcodeMap, rowsXI])
    (encodeXI_mask_family _ _ _ rfl rfl)).trans (by simp)

theorem seReg (x : Reg) (y : Reg) : Statement (.seReg x y) :=
  fun _ => (decode_of_row (r := ⟨0xF00F, 0x5000, fun w => .seReg (fieldX w) (fieldY w)⟩) (by simp [opcodeMap, rowsXY])
    (encodeXY_mask_nibble _ _ _ _ rfl rfl rfl)).trans (by simp)

theorem ldImm (x : Reg) (nn : Byte) : Statement (.ldImm x nn) :=
  fun _ => (decode_of_row (r := ⟨0xF000, 0x6000, fun w => .ldImm (fieldX w) (fieldNN w)⟩) (by simp [opcodeMap, rowsXI])
    (encodeXI_mask_family _ _ _ rfl rfl)).trans (by simp)

theorem addImm (x : Reg) (nn : Byte) : Statement (.addImm x nn) :=
  fun _ => (decode_of_row (r := ⟨0xF000, 0x7000, fun w => .addImm (fieldX w) (fieldNN w)⟩) (by simp [opcodeMap, rowsXI])
    (encodeXI_mask_family _ _ _ rfl rfl)).trans (by simp)

theorem ldReg (x : Reg) (y : Reg) : Statement (.ldReg x y) :=
  fun _ => (decode_of_row (r := ⟨0xF00F, 0x8000, fun w => .ldReg (fieldX w) (fieldY w)⟩) (by simp [opcodeMap, rowsXY])
    (encodeXY_mask_nibble _ _ _ _ rfl rfl rfl)).trans (by simp)

theorem or (x : Reg) (y : Reg) : Statement (.or x y) :=
  fun _ => (decode_of_row (r := ⟨0xF00F, 0x8001, fun w => .or (fieldX w) (fieldY w)⟩) (by simp [opcodeMap, rowsXY])
    (encodeXY_mask_nibble _ _ _ _ rfl rfl rfl)).trans (by simp)

theorem and (x : Reg) (y : Reg) : Statement (.and x y) :=
  fun _ => (decode_of_row (r := ⟨0xF00F, 0x8002, fun w => .and (fieldX w) (fieldY w)⟩) (by simp [opcodeMap, rowsXY])
    (encodeXY_mask_nibble _ _ _ _ rfl rfl rfl)).trans (by simp)

theorem xor (x : Reg) (y : Reg) : Statement (.xor x y) :=
  fun _ => (decode_of_row (r := ⟨0xF00F, 0x8003, fun w => .xor (fieldX w) (fieldY w)⟩) (by simp [opcodeMap, rowsXY])
    (encodeXY_mask_nibble _ _ _ _ rfl rfl rfl)).trans (by simp)

theorem addReg (x : Reg) (y : Reg) : Statement (.addReg x y) :=
  fun _ => (decode_of_row (r := ⟨0xF00F, 0x8004, fun w => .addReg (fieldX w) (fieldY w)⟩) (by simp [opcodeMap, rowsXY])
    (encodeXY_mask_nibble _ _ _ _ rfl rfl rfl)).trans (by simp)

theorem sub (x : Reg) (y : Reg) : Statement (.sub x y) :=
  fun _ => (decode_of_row (r := ⟨0xF00F, 0x8005, fun w => .sub (fieldX w) (fieldY w)⟩) (by simp [opcodeMap, rowsXY])
    (encodeXY_mask_nibble _ _ _ _ rfl rfl rfl)).trans (by simp)

theorem shr (x : Reg) (y : Reg) : Statement (.shr x y) :=
  fun _ => (decode_of_row (r := ⟨0xF00F, 0x8006, fun w => .shr (fieldX w) (fieldY w)⟩) (by simp [opcodeMap, rowsXY])
    (encodeXY_mask_nibble _ _ _ _ rfl rfl rfl)).trans (by simp)

theorem subn (x : Reg) (y : Reg) : Statement (.subn x y) :=
  fun _ => (decode_of_row (r := ⟨0xF00F, 0x8007, fun w => .subn (fieldX w) (fieldY w)⟩) (by simp [opcodeMap, rowsXY])
    (encodeXY_mask_nibble _ _ _ _ rfl rfl rfl)).trans (by simp)

theorem shl (x : Reg) (y : Reg) : Statement (.shl x y) :=
  fun _ => (decode_of_row (r := ⟨0xF00F, 0x800E, fun w => .shl (fieldX w) (fieldY w)⟩) (by simp [opcodeMap, rowsXY])
    (encodeXY_mask_nibble _ _ _ _ rfl rfl rfl)).trans (by simp)

theorem sneReg (x : Reg) (y : Reg) : Statement (.sneReg x y) :=
  fun _ => (decode_of_row (r := ⟨0xF00F, 0x9000, fun w => .sneReg (fieldX w) (fieldY w)⟩) (by simp [opcodeMap, rowsXY])
    (encodeXY_mask_nibble _ _ _ _ rfl rfl rfl)).trans (by simp)

theorem ldI (nnn : Addr12) : Statement (.ldI nnn) :=
  fun _ => (decode_of_row (r := ⟨0xF000, 0xA000, fun w => .ldI (fieldNNN w)⟩) (by simp [opcodeMap, rowsZA])
    (encodeA_mask _ _ rfl rfl)).trans (by simp)

theorem jpV0 (nnn : Addr12) : Statement (.jpV0 nnn) :=
  fun _ => (decode_of_row (r := ⟨0xF000, 0xB000, fun w => .jpV0 (fieldNNN w)⟩) (by simp [opcodeMap, rowsZA])
    (encodeA_mask _ _ rfl rfl)).trans (by simp)

theorem rnd (x : Reg) (nn : Byte) : Statement (.rnd x nn) :=
  fun _ => (decode_of_row (r := ⟨0xF000, 0xC000, fun w => .rnd (fieldX w) (fieldNN w)⟩) (by simp [opcodeMap, rowsXI])
    (encodeXI_mask_family _ _ _ rfl rfl)).trans (by simp)

theorem drw (x : Reg) (y : Reg) (n : RowCount) : Statement (.drw x y n) :=
  fun _ => (decode_of_row (r := ⟨0xF000, 0xD000, fun w => .drw (fieldX w) (fieldY w) (fieldN w)⟩) (by simp [opcodeMap, rowsXI])
    (encodeXY_mask_family _ _ _ _ rfl rfl)).trans (by simp)

theorem skp (x : Reg) : Statement (.skp x) :=
  fun _ => (decode_of_row (r := ⟨0xF0FF, 0xE09E, fun w => .skp (fieldX w)⟩) (by simp [opcodeMap, rowsXF])
    (encodeXI_mask_byte _ _ _ rfl rfl rfl)).trans (by simp)

theorem sknp (x : Reg) : Statement (.sknp x) :=
  fun _ => (decode_of_row (r := ⟨0xF0FF, 0xE0A1, fun w => .sknp (fieldX w)⟩) (by simp [opcodeMap, rowsXF])
    (encodeXI_mask_byte _ _ _ rfl rfl rfl)).trans (by simp)

theorem ldVxDt (x : Reg) : Statement (.ldVxDt x) :=
  fun _ => (decode_of_row (r := ⟨0xF0FF, 0xF007, fun w => .ldVxDt (fieldX w)⟩) (by simp [opcodeMap, rowsXF])
    (encodeXI_mask_byte _ _ _ rfl rfl rfl)).trans (by simp)

theorem ldVxK (x : Reg) : Statement (.ldVxK x) :=
  fun _ => (decode_of_row (r := ⟨0xF0FF, 0xF00A, fun w => .ldVxK (fieldX w)⟩) (by simp [opcodeMap, rowsXF])
    (encodeXI_mask_byte _ _ _ rfl rfl rfl)).trans (by simp)

theorem ldDtVx (x : Reg) : Statement (.ldDtVx x) :=
  fun _ => (decode_of_row (r := ⟨0xF0FF, 0xF015, fun w => .ldDtVx (fieldX w)⟩) (by simp [opcodeMap, rowsXF])
    (encodeXI_mask_byte _ _ _ rfl rfl rfl)).trans (by simp)

theorem ldStVx (x : Reg) : Statement (.ldStVx x) :=
  fun _ => (decode_of_row (r := ⟨0xF0FF, 0xF018, fun w => .ldStVx (fieldX w)⟩) (by simp [opcodeMap, rowsXF])
    (encodeXI_mask_byte _ _ _ rfl rfl rfl)).trans (by simp)

theorem addIVx (x : Reg) : Statement (.addIVx x) :=
  fun _ => (decode_of_row (r := ⟨0xF0FF, 0xF01E, fun w => .addIVx (fieldX w)⟩) (by simp [opcodeMap, rowsXF])
    (encodeXI_mask_byte _ _ _ rfl rfl rfl)).trans (by simp)

theorem ldFVx (x : Reg) : Statement (.ldFVx x) :=
  fun _ => (decode_of_row (r := ⟨0xF0FF, 0xF029, fun w => .ldFVx (fieldX w)⟩) (by simp [opcodeMap, rowsXF])
    (encodeXI_mask_byte _ _ _ rfl rfl rfl)).trans (by simp)

theorem ldBVx (x : Reg) : Statement (.ldBVx x) :=
  fun _ => (decode_of_row (r := ⟨0xF0FF, 0xF033, fun w => .ldBVx (fieldX w)⟩) (by simp [opcodeMap, rowsXF])
    (encodeXI_mask_byte _ _ _ rfl rfl rfl)).trans (by simp)

theorem ldMemVx (x : Reg) : Statement (.ldMemVx x) :=
  fun _ => (decode_of_row (r := ⟨0xF0FF, 0xF055, fun w => .ldMemVx (fieldX w)⟩) (by simp [opcodeMap, rowsXF])
    (encodeXI_mask_byte _ _ _ rfl rfl rfl)).trans (by simp)

theorem ldVxMem (x : Reg) : Statement (.ldVxMem x) :=
  fun _ => (decode_of_row (r := ⟨0xF0FF, 0xF065, fun w => .ldVxMem (fieldX w)⟩) (by simp [opcodeMap, rowsXF])
    (encodeXI_mask_byte _ _ _ rfl rfl rfl)).trans (by simp)

theorem undef (w : Word) : Statement (.undef w) :=
  fun h => decode_of_no_row (no_row_of_unrecognised h)

end Sys2Proof.Laws.RoundTrip
end

