-- ==== Sys2Proof/Tests/Slice0.lean ====
section
/-! SUPPORT. The model's own tests: ill-formed terms, decoding of words written out from spec/30_encoding.md R76, single
steps with the results of spec/95_test_vectors.md, and for each statement with hypotheses a witness that meets them. -/

namespace Sys2Proof.Tests

open Sys2Proof Sys2Proof.Machine

/-! ## Helpers -/

/-- The state an outcome leads to, or the state itself where there is none. -/
def after (s : State) : Host.Outcome State Fault Refusal → State
  | .next t => t
  | _ => s

/-- One step of the machine in state `s` with the word `w` stored at `pc`. -/
def ran (w : Nat) (s : State) : State := after s (step (s.withFetchWord 16 w))

/-- The reset state with some registers given values. -/
def withRegs (rs : List (Nat × Byte)) : State :=
  { State.reset with v := rs.foldl (fun v r => v.setIfInBounds r.1 r.2) State.reset.v }

/-- The state with bytes stored from an address on. -/
def withBytes (a : Nat) (bs : List Byte) (s : State) : State := s.setMem (s.mem.writeBytes a bs)

/-- The lit cells of the first rows of a display, as (column, row), row by row. -/
def lit (d : Display) (rows : List Nat) : List (Nat × Nat) :=
  rows.flatMap fun y => ((List.range 64).filter (fun x => Display.pixel d (Fin.ofNat 64 x) (Fin.ofNat 32 y))).map
    fun x => (x, y)

/-- A display with some cells lit. -/
def display (cells : List (Nat × Nat)) : Display :=
  cells.foldl (fun d p => Display.toggle d (Fin.ofNat 64 p.1) (Fin.ofNat 32 p.2)) Display.blank

/-! ## Well-formedness: the one check, on ill-formed terms (R77) -/

theorem test_wf_refuses_cls_as_undef : (Instr.undef 0x00E0).wf = false := by decide
theorem test_wf_refuses_ret_as_undef : (Instr.undef 0x00EE).wf = false := by decide
theorem test_wf_refuses_recognised_words_as_undef :
    [0x1000, 0x2FFF, 0x3000, 0x4000, 0x5AB0, 0x6000, 0x7000, 0x8007, 0x800E, 0x9120, 0xA000, 0xB000, 0xC000, 0xD000].all
      (fun w => !(Instr.undef w).wf) = true := by decide
theorem test_wf_refuses_recognised_low_bytes_as_undef :
    [0xE09E, 0xEFA1, 0xF007, 0xF00A, 0xF015, 0xF018, 0xF01E, 0xF029, 0xF033, 0xF055, 0xFF65].all
      (fun w => !(Instr.undef w).wf) = true := by decide
theorem test_wf_accepts_unrecognised_words :
    [0x0000, 0x00E1, 0x00FE, 0x01E0, 0x0123, 0x5121, 0x512F, 0x8AB8, 0x8AB9, 0x8ABD, 0x8ABF, 0x9121, 0xE19F, 0xE1A2,
      0xE100, 0xF000, 0xF175, 0xF1FF].all (fun w => (Instr.undef w).wf) = true := by decide

/-! ## Decoding: for every constructor a word written out from its row of R76 and its format of R73 -/
theorem test_decode_cls : decode 0x00E0 = .cls ∧ encode (.cls) = 0x00E0 := by decide
theorem test_decode_ret : decode 0x00EE = .ret ∧ encode (.ret) = 0x00EE := by decide
theorem test_decode_jp : decode 0x1ABC = .jp 0xABC ∧ encode (.jp 0xABC) = 0x1ABC := by decide
theorem test_decode_call : decode 0x2345 = .call 0x345 ∧ encode (.call 0x345) = 0x2345 := by decide
theorem test_decode_seImm : decode 0x3A42 = .seImm 0xA 0x42 ∧ encode (.seImm 0xA 0x42) = 0x3A42 := by decide
theorem test_decode_sneImm : decode 0x4B17 = .sneImm 0xB 0x17 ∧ encode (.sneImm 0xB 0x17) = 0x4B17 := by decide
theorem test_decode_seReg : decode 0x5AB0 = .seReg 0xA 0xB ∧ encode (.seReg 0xA 0xB) = 0x5AB0 := by decide
theorem test_decode_ldImm : decode 0x6F99 = .ldImm 0xF 0x99 ∧ encode (.ldImm 0xF 0x99) = 0x6F99 := by decide
theorem test_decode_addImm : decode 0x71FF = .addImm 1 0xFF ∧ encode (.addImm 1 0xFF) = 0x71FF := by decide
theorem test_decode_ldReg : decode 0x8120 = .ldReg 1 2 ∧ encode (.ldReg 1 2) = 0x8120 := by decide
theorem test_decode_or : decode 0x8121 = .or 1 2 ∧ encode (.or 1 2) = 0x8121 := by decide
theorem test_decode_and : decode 0x8342 = .and 3 4 ∧ encode (.and 3 4) = 0x8342 := by decide
theorem test_decode_xor : decode 0x8563 = .xor 5 6 ∧ encode (.xor 5 6) = 0x8563 := by decide
theorem test_decode_addReg : decode 0x8784 = .addReg 7 8 ∧ encode (.addReg 7 8) = 0x8784 := by decide
theorem test_decode_sub : decode 0x89A5 = .sub 9 0xA ∧ encode (.sub 9 0xA) = 0x89A5 := by decide
theorem test_decode_shr : decode 0x8BC6 = .shr 0xB 0xC ∧ encode (.shr 0xB 0xC) = 0x8BC6 := by decide
theorem test_decode_subn : decode 0x8DE7 = .subn 0xD 0xE ∧ encode (.subn 0xD 0xE) = 0x8DE7 := by decide
theorem test_decode_shl : decode 0x8F0E = .shl 0xF 0 ∧ encode (.shl 0xF 0) = 0x8F0E := by decide
theorem test_decode_sneReg : decode 0x9AB0 = .sneReg 0xA 0xB ∧ encode (.sneReg 0xA 0xB) = 0x9AB0 := by decide
theorem test_decode_ldI : decode 0xAFFE = .ldI 0xFFE ∧ encode (.ldI 0xFFE) = 0xAFFE := by decide
theorem test_decode_jpV0 : decode 0xB301 = .jpV0 0x301 ∧ encode (.jpV0 0x301) = 0xB301 := by decide
theorem test_decode_rnd : decode 0xC10F = .rnd 1 0x0F ∧ encode (.rnd 1 0x0F) = 0xC10F := by decide
theorem test_decode_drw : decode 0xD125 = .drw 1 2 5 ∧ encode (.drw 1 2 5) = 0xD125 := by decide
theorem test_decode_skp : decode 0xE79E = .skp 7 ∧ encode (.skp 7) = 0xE79E := by decide
theorem test_decode_sknp : decode 0xE8A1 = .sknp 8 ∧ encode (.sknp 8) = 0xE8A1 := by decide
theorem test_decode_ldVxDt : decode 0xF107 = .ldVxDt 1 ∧ encode (.ldVxDt 1) = 0xF107 := by decide
theorem test_decode_ldVxK : decode 0xF30A = .ldVxK 3 ∧ encode (.ldVxK 3) = 0xF30A := by decide
theorem test_decode_ldDtVx : decode 0xF215 = .ldDtVx 2 ∧ encode (.ldDtVx 2) = 0xF215 := by decide
theorem test_decode_ldStVx : decode 0xF418 = .ldStVx 4 ∧ encode (.ldStVx 4) = 0xF418 := by decide
theorem test_decode_addIVx : decode 0xF51E = .addIVx 5 ∧ encode (.addIVx 5) = 0xF51E := by decide
theorem test_decode_ldFVx : decode 0xF629 = .ldFVx 6 ∧ encode (.ldFVx 6) = 0xF629 := by decide
theorem test_decode_ldBVx : decode 0xF733 = .ldBVx 7 ∧ encode (.ldBVx 7) = 0xF733 := by decide
theorem test_decode_ldMemVx : decode 0xFF55 = .ldMemVx 0xF ∧ encode (.ldMemVx 0xF) = 0xFF55 := by decide
theorem test_decode_ldVxMem : decode 0xF265 = .ldVxMem 2 ∧ encode (.ldVxMem 2) = 0xF265 := by decide
theorem test_decode_undef : decode 0x5AB1 = .undef 0x5AB1 ∧ encode (.undef 0x5AB1) = 0x5AB1 := by decide

/-- R80: the second operand of a shift sets the Y nibble, and one operand means Y = 0. -/
theorem test_shift_y_nibble : encode (.shr 3 0) = 0x8306 ∧ encode (.shl 3 0xA) = 0x83AE := by decide

/-- The table's numbering: bit 0 is the word's least significant bit, and the hardware stores the high byte first. -/
theorem test_decodeTableWord : decodeTableWord 16 0x1234 = some (.jp 0x234) := by decide
/-- R54: the byte at the lower address holds bits 15 to 8. -/
theorem test_decodeBytes : decodeBytes [0x12, 0x34, 0x56] = .ok (.jp 0x234, [0x56]) := by decide
theorem test_decodeBytes_truncated : decodeBytes [0x12] = .error .truncated := by decide
/-- R53, R51: the font, and zeros above it. -/
theorem test_reset_memory : State.reset.mem.readBytes 0x4B 6 = [0xF0, 0x80, 0xF0, 0x80, 0x80, 0] := by decide
/-- The memory list keeps its one form: writing back what an unlisted address reads as removes the entry. -/
theorem test_write_canonical :
    Memory.write (Memory.write (Memory.write [] 0x300 7) 0x200 9) 0x300 0 = [(0x200, 9)] := by decide

/-! ## Single steps (95_test_vectors.md part 1 and 2; the vector's name stands before each) -/
/-- S2 -/
theorem test_cls :
    let t := ran 0x00E0 { withRegs [(15, 9)] with fb := display [(0, 0), (63, 31)] }
    t.fb = Display.blank ∧ t.v[15] = 9 ∧ t.pc = 0x202 := by decide
/-- T1 -/
theorem test_ret :
    let t := ran 0x00EE { State.reset with pc := 0x212, sp := 1, stack := State.reset.stack.set 0 0x206 }
    t.pc = 0x206 ∧ t.sp = 0 ∧ t.stack[0] = 0x206 := by decide
/-- T2 -/
theorem test_ret_underflow :
    let t := ran 0x00EE { State.reset with pc := 0x212 }
    t.fault = 3 ∧ t.pc = 0x212 ∧ t.sp = 0 := by decide
/-- T3 -/
theorem test_jp :
    let t := ran 0x1ABC State.reset
    t.pc = 0xABC := by decide
/-- T4 -/
theorem test_jp_top :
    let t := ran 0x1FFF State.reset
    t.pc = 0xFFF ∧ t.fault = 0 ∧ (after t (step t)).fault = 1 ∧ (after t (step t)).pc = 0xFFF := by decide
/-- T6 -/
theorem test_call :
    let t := ran 0x2345 { State.reset with pc := 0x400, sp := 15 }
    t.stack[15] = 0x402 ∧ t.sp = 16 ∧ t.pc = 0x345 := by decide
/-- T7 -/
theorem test_call_overflow :
    let t := ran 0x2345 { State.reset with pc := 0x400, sp := 16 }
    t.fault = 2 ∧ t.pc = 0x400 ∧ t.sp = 16 ∧ t.stack = State.reset.stack := by decide
/-- T10 -/
theorem test_jpV0_not_masked :
    let t := ran 0xBFFF (withRegs [(0, 0xFF)])
    t.pc = 0x10FE ∧ t.fault = 0 ∧ (after t (step t)).fault = 1 := by decide
/-- T11 -/
theorem test_jpV0 :
    let t := ran 0xB300 (withRegs [(0, 4), (3, 0x80)])
    t.pc = 0x304 := by decide
/-- T12 -/
theorem test_undef :
    let t := ran 0x5121 (withRegs [(1, 7), (2, 7)])
    t.pc = 0x202 ∧ t.v = (withRegs [(1, 7), (2, 7)]).v := by decide
/-- T12 -/
theorem test_undef_family_0 :
    let t := ran 0x0123 { withRegs [(10, 3)] with i := 0x345 }
    t.pc = 0x202 ∧ t.i = 0x345 ∧ t.fault = 0 := by decide
/-- T20 -/
theorem test_fetch_odd :
    let s := { withBytes 0x200 [0x60, 0x12, 0x34, 0] State.reset with pc := 0x201 }
    (after s (step s)).pc = 0x234 ∧ (after s (step s)).v[0] = 0 := by decide
/-- T21 -/
theorem test_fetch_out_of_range :
    let s := { State.reset with pc := 0xFFF }
    after s (step s) = { s with fault := 1 } := by decide
/-- T22 -/
theorem test_fetch_last_word :
    let t := ran 0x0000 { State.reset with pc := 0xFFE }
    t.pc = 0x1000 ∧ t.fault = 0 := by decide
/-- T24 -/
theorem test_halted :
    let s := { State.reset with fault := 2 }
    after s (step s) = s := by decide
/-- T30 -/
theorem test_seImm_skips :
    let t := ran 0x3A42 (withRegs [(10, 0x42)])
    t.pc = 0x204 := by decide
/-- T31 -/
theorem test_seImm_falls_through :
    let t := ran 0x3A42 (withRegs [(10, 0x43)])
    t.pc = 0x202 := by decide
/-- T32 -/
theorem test_sneImm_skips :
    let t := ran 0x4A42 (withRegs [(10, 0x43)])
    t.pc = 0x204 := by decide
/-- T33 -/
theorem test_sneImm_falls_through :
    let t := ran 0x4A42 (withRegs [(10, 0x42)])
    t.pc = 0x202 := by decide
/-- T34 -/
theorem test_seReg_skips :
    let t := ran 0x5AA0 (withRegs [(10, 9)])
    t.pc = 0x204 := by decide
/-- T35 -/
theorem test_seReg_falls_through :
    let t := ran 0x5AB0 (withRegs [(10, 9), (11, 8)])
    t.pc = 0x202 := by decide
/-- T36 -/
theorem test_sneReg_falls_through :
    let t := ran 0x9AA0 (withRegs [(10, 9)])
    t.pc = 0x202 := by decide
/-- T37 -/
theorem test_sneReg_skips :
    let t := ran 0x9AB0 (withRegs [(10, 9), (11, 8)])
    t.pc = 0x204 := by decide
/-- T39 -/
theorem test_skp :
    let t := ran 0xE09E { withRegs [(0, 5)] with pc := 0x206, key := 0x0020 }
    t.pc = 0x20A := by decide
/-- T43 -/
theorem test_skp_index :
    let t := ran 0xE09E (withRegs [(0, 0x10)])
    t.fault = 5 ∧ t.pc = 0x200 := by decide
/-- T41 -/
theorem test_sknp :
    let t := ran 0xE0A1 { withRegs [(0, 5)] with pc := 0x206, key := 0x0020 }
    t.pc = 0x208 := by decide
/-- T44 -/
theorem test_sknp_index :
    let t := ran 0xE0A1 (withRegs [(0, 0xFF)])
    t.fault = 5 ∧ t.pc = 0x200 := by decide
/-- T50 -/
theorem test_ldImm_vf :
    let t := ran 0x6F99 State.reset
    t.v[15] = 0x99 ∧ t.pc = 0x202 := by decide
/-- T52 -/
theorem test_addImm_wraps :
    let t := ran 0x7101 (withRegs [(1, 0xFF)])
    t.v[1] = 0 ∧ t.v[15] = 0 := by decide
/-- T53 -/
theorem test_addImm_vf :
    let t := ran 0x7F01 (withRegs [(15, 0xFF)])
    t.v[15] = 0 := by decide
/-- T60 -/
theorem test_ldReg :
    let t := ran 0x8120 (withRegs [(1, 1), (2, 0x99), (15, 0x55)])
    t.v[1] = 0x99 ∧ t.v[2] = 0x99 ∧ t.v[15] = 0x55 := by decide
/-- T62 -/
theorem test_or :
    let t := ran 0x8121 (withRegs [(1, 0xF0), (2, 0x0F), (15, 0x55)])
    t.v[1] = 0xFF ∧ t.v[15] = 0x55 := by decide
/-- T63 -/
theorem test_and :
    let t := ran 0x8122 (withRegs [(1, 0xFC), (2, 0x3F), (15, 0x55)])
    t.v[1] = 0x3C ∧ t.v[15] = 0x55 := by decide
/-- T64 -/
theorem test_xor :
    let t := ran 0x8123 (withRegs [(1, 0xFC), (2, 0x3F), (15, 0x55)])
    t.v[1] = 0xC3 ∧ t.v[15] = 0x55 := by decide
/-- T68 -/
theorem test_addReg_vf_is_destination :
    let t := ran 0x8F14 (withRegs [(15, 0xFF), (1, 1)])
    t.v[15] = 1 := by decide
/-- T69 -/
theorem test_addReg_vf_is_operand :
    let t := ran 0x81F4 (withRegs [(1, 1), (15, 1)])
    t.v[1] = 2 ∧ t.v[15] = 0 := by decide
/-- T71 -/
theorem test_sub_equal :
    let t := ran 0x8125 (withRegs [(1, 0x33), (2, 0x33)])
    t.v[1] = 0 ∧ t.v[15] = 1 := by decide
/-- S5 -/
theorem test_sub_borrow :
    let t := ran 0x8125 (withRegs [(1, 1), (2, 2)])
    t.v[1] = 0xFF ∧ t.v[15] = 0 ∧ t.v[2] = 2 := by decide
/-- T76 -/
theorem test_subn_borrow :
    let t := ran 0x8127 (withRegs [(1, 5), (2, 3)])
    t.v[1] = 0xFE ∧ t.v[15] = 0 ∧ t.v[2] = 3 := by decide
/-- T77 -/
theorem test_subn :
    let t := ran 0x8127 (withRegs [(1, 3), (2, 5)])
    t.v[1] = 2 ∧ t.v[15] = 1 := by decide
/-- T79 -/
theorem test_shr_ignores_y :
    let t := ran 0x8126 (withRegs [(1, 5), (2, 0xF0)])
    t.v[1] = 2 ∧ t.v[15] = 1 ∧ t.v[2] = 0xF0 := by decide
/-- T82 -/
theorem test_shr_vf :
    let t := ran 0x8F06 (withRegs [(15, 3)])
    t.v[15] = 1 := by decide
/-- T84 -/
theorem test_shl :
    let t := ran 0x810E (withRegs [(1, 0x7F), (15, 1)])
    t.v[1] = 0xFE ∧ t.v[15] = 0 := by decide
/-- T86 -/
theorem test_shl_vf :
    let t := ran 0x8F0E (withRegs [(15, 0x80)])
    t.v[15] = 1 := by decide
/-- T90 -/
theorem test_ldI :
    let t := ran 0xAFFF State.reset
    t.i = 0x0FFF := by decide
/-- T91 -/
theorem test_addI_wraps :
    let t := ran 0xF01E { withRegs [(0, 2), (15, 7)] with i := 0xFFFF }
    t.i = 1 ∧ t.v[15] = 7 := by decide
/-- T93 -/
theorem test_ldF :
    let t := ran 0xF029 (withRegs [(0, 0xF)])
    t.i = 0x4B := by decide
/-- T95 -/
theorem test_ldF_not_a_digit :
    let t := ran 0xF029 { withRegs [(0, 0x10)] with i := 0x123 }
    t.i = 0x123 ∧ t.pc = 0x202 ∧ t.fault = 0 := by decide
/-- T96 -/
theorem test_ldB :
    let t := ran 0xF033 { withRegs [(0, 0xFF)] with i := 0xFFD }
    t.mem.readBytes 0xFFD 3 = [2, 5, 5] ∧ t.i = 0xFFD := by decide
/-- T97 -/
theorem test_ldB_out_of_range :
    let t := ran 0xF033 { withRegs [(0, 0xFF)] with i := 0xFFE }
    t.fault = 4 ∧ t.mem.readBytes 0xFFE 2 = [0, 0] ∧ t.pc = 0x200 := by decide
/-- T102 -/
theorem test_ldMem :
    let t := ran 0xF255 { withRegs [(0, 1), (1, 2), (2, 3), (3, 4)] with i := 0x300 }
    t.mem.readBytes 0x300 4 = [1, 2, 3, 0] ∧ t.i = 0x300 := by decide
/-- T101 -/
theorem test_ldMem_out_of_range :
    let t := ran 0xFF55 { withRegs [(0, 0xA0)] with i := 0xFF1 }
    t.fault = 4 ∧ t.mem.read 0xFF1 = 0 := by decide
/-- T103 -/
theorem test_ldVxMem :
    let t := ran 0xFF65 State.reset
    t.v.toList.take 5 = [0xF0, 0x90, 0x90, 0x90, 0xF0] ∧ t.v[13] = 0x80 ∧ t.v[15] = 0xF0 := by decide
/-- T104 -/
theorem test_ldVxMem_out_of_range :
    let t := ran 0xF165 { withBytes 0xFFF [0x77] (withRegs [(0, 0x11), (1, 0x22)]) with i := 0xFFF }
    t.fault = 4 ∧ t.v[0] = 0x11 ∧ t.v[1] = 0x22 := by decide
/-- T110 -/
theorem test_drw_reads_vf_first :
    let t := ran 0xDF11 { withBytes 0x300 [0xC0] (withRegs [(1, 2), (15, 5)]) with i := 0x300 }
    lit t.fb [1, 2, 3] = [(5, 2), (6, 2)] ∧ t.v[15] = 0 := by decide
/-- T112 -/
theorem test_drw_collision :
    let t := ran 0xD011 { withBytes 0x300 [0xA0] State.reset with i := 0x300, fb := display [(0, 0), (1, 0)] }
    lit t.fb [0, 1] = [(1, 0), (2, 0)] ∧ t.v[15] = 1 := by decide
/-- R142 by hand, log 9 -/
theorem test_second_draw_without_collision :
    let t := ran 0xD011 { withBytes 0x300 [0x80] State.reset with i := 0x300, fb := display [(0, 0)] }; let u := ran 0xD011 { t with pc := 0x200 }
    t.v[15] = 1 ∧ lit t.fb [0] = [] ∧ lit u.fb [0] = [(0, 0)] ∧ u.v[15] = 0 := by decide
/-- T114 -/
theorem test_drw_wraps :
    let t := ran 0xD015 { withRegs [(0, 62), (1, 30)] with i := 25 }
    lit t.fb [30, 31, 0] = [(0, 30), (1, 30), (62, 30), (63, 30)] ++ [(62, 31)] ++ [(0, 0), (1, 0), (62, 0), (63, 0)] ∧ lit t.fb [1, 2, 3] = [(1, 1)] ++ [(0, 2), (1, 2), (62, 2), (63, 2)] := by decide
/-- T116 -/
theorem test_drw_out_of_range :
    let t := ran 0xD012 { State.reset with i := 0xFFF }
    t.fault = 4 ∧ t.fb = Display.blank ∧ t.pc = 0x200 := by decide
/-- T54 -/
theorem test_rnd_advances :
    let t := ran 0xC100 (withRegs [(1, 9)])
    t.pc = 0x202 ∧ t.draws = 1 := by decide
/-- T120 -/
theorem test_ldVxDt :
    let t := ran 0xF107 { State.reset with dt := 0x2A, st := 9 }
    t.v[1] = 0x2A ∧ t.dt = 0x2A ∧ t.st = 9 := by decide
/-- T121 -/
theorem test_ldDtVx :
    let t := ran 0xF115 { withRegs [(1, 0x3C)] with st := 9 }
    t.dt = 0x3C ∧ t.st = 9 := by decide
/-- T122 -/
theorem test_ldStVx :
    let t := ran 0xF118 { withRegs [(1, 0x3C)] with dt := 9 }
    t.st = 0x3C ∧ t.dt = 9 := by decide
/-- T123 -/
theorem test_ldVxK_lowest :
    let t := ran 0xF30A { State.reset with key := 0x0204 }
    t.v[3] = 2 ∧ t.pc = 0x202 := by decide
/-- T125 -/
theorem test_ldVxK_waits :
    let t := ran 0xF30A (withRegs [(3, 7)])
    t.v[3] = 7 ∧ t.pc = 0x200 := by decide
/-- T126 -/
theorem test_tick :
    let t := State.tick { State.reset with dt := 1, st := 2 }
    (t.dt, t.st) = (0, 1) ∧ (t.tick.dt, t.tick.st) = (0, 0) ∧ (t.tick.tick.dt, t.tick.tick.st) = (0, 0) := by decide
/-- T128 -/
theorem test_setKeys :
    let t := (transact (.setKeys 0x0208) State.reset).1
    (List.range 16).filter (fun k => t.key.getLsbD k) = [3, 9] := by decide
/-- R171 -/
theorem test_keyBits :
    let k := keyBits (Vector.ofFn (fun i => if i = 3 then 0x80 else if i = 9 then 1 else 0))
    k = 0x0208 := by decide
/-- S9 -/
theorem test_load :
    let t := (transact (.load [0x12, 0x00]) State.reset).1
    t.mem.readBytes 0x1FF 4 = [0, 0x12, 0, 0] ∧ t.pc = 0x200 ∧ after t (step t) = t := by decide
/-- T133 -/
theorem test_reset_clears :
    let t := (transact .reset { withRegs [(1, 2)] with fault := 4 }).1
    t = State.reset := by decide
/-- T130 -/
theorem test_load_too_long :
    transact (.load (List.replicate 3585 1)) State.reset = (State.reset, .refused (.imageTooLong 3585)) := by
  rw [transact, load, List.length_replicate]; rfl

/-! ## Witnesses: for each statement with hypotheses, a state and operands that meet them -/

theorem witness_DecodeOfEncodeIsIdentity :
    (Instr.drw 15 0 15).wf = true ∧ (Instr.undef 0x8AB8).wf = true ∧ (Instr.undef 0xF1FF).wf = true := by decide

/-- The first and the last `pc` that can fetch. -/
theorem witness_StepExecutesTheBigEndianWordAtPc :
    (State.reset.fault = 0 ∧ ({ State.reset with pc := 0 } : State).pc.toNat ≤ 0xFFE) ∧
    ({ State.reset with pc := 0xFFE } : State).pc.toNat ≤ 0xFFE := by decide

theorem witness_HaltedOrUnfetchableStepExecutesNothing :
    ({ State.reset with fault := 1 } : State).fault ≠ 0 ∧
    (let s := { State.reset with pc := 0xFFF }; s.fault = 0 ∧ 0xFFE < s.pc.toNat) := by decide

/-- The least and the greatest SP of the second clause, and the third clause's. -/
theorem witness_RetPopsTheReturnAddress :
    ({ State.reset with sp := 1 } : State).sp.val = (0 : Fin 16).val + 1 ∧
    ({ State.reset with sp := 16 } : State).sp.val = (15 : Fin 16).val + 1 ∧ State.reset.sp = 0 := by decide

/-- A jump to itself at 0x200 and at the last `pc` that can fetch. -/
theorem witness_JpSetsPc :
    (State.reset.fault = 0 ∧ ∃ t, exec (.jp 0xFFF) State.reset = .next t) ∧
    (let s := withBytes 0x200 [0x12, 0x00] State.reset
     s.fault = 0 ∧ s.pc.toNat ≤ 0xFFE ∧ s.fetchWord = 0x1000 + s.pc) ∧
    (let s := withBytes 0xFFE [0x1F, 0xFE] { State.reset with pc := 0xFFE }
     s.fault = 0 ∧ s.pc.toNat ≤ 0xFFE ∧ s.fetchWord = 0x1000 + s.pc) :=
  ⟨⟨by decide, _, rfl⟩, by decide, by decide⟩

theorem witness_CallPushesTheNextAddress :
    State.reset.sp = (0 : Fin 16).castSucc ∧ ({ State.reset with sp := 15 } : State).sp = (15 : Fin 16).castSucc ∧
    ({ State.reset with sp := 16 } : State).sp = 16 := by decide

theorem no_pattern {w : Word} (h : specPatterns.all (fun p => w &&& p.1 != p.2) = true) :
    ∀ p ∈ specPatterns, w &&& p.1 ≠ p.2 := fun p hp => by
  simpa using List.all_eq_true.mp h p hp

theorem witness_UndefOnlyAdvances :
    (∀ p ∈ specPatterns, (0x0000 : Word) &&& p.1 ≠ p.2) ∧ (∀ p ∈ specPatterns, (0xF1FF : Word) &&& p.1 ≠ p.2) :=
  ⟨no_pattern (by decide), no_pattern (by decide)⟩

theorem witness_SkipsOnKey :
    ((withRegs [(0, 0)]).v[(0 : Reg)]).toNat < 16 ∧ ((withRegs [(0, 15)]).v[(0 : Reg)]).toNat < 16 ∧
    16 ≤ ((withRegs [(0, 16)]).v[(0 : Reg)]).toNat ∧ 16 ≤ ((withRegs [(0, 255)]).v[(0 : Reg)]).toNat := by decide

theorem witness_SubtractIsAddOfTheComplement :
    let s := withRegs [(1, 0xFF), (2, 1)]
    ∃ t u, exec (.sub 1 2) s = .next u ∧ exec (.addReg 1 2) s = .next t ∧ (∃ u, exec (.sub 1 2) t = .next u) ∧
      (1 : Reg) ≠ 2 ∧ (1 : Reg) ≠ 15 ∧ (2 : Reg) ≠ 15 :=
  ⟨_, _, rfl, rfl, ⟨_, rfl⟩, by decide, by decide, by decide⟩

theorem witness_LdFPointsAtTheGlyph :
    ((withRegs [(3, 15)]).v[(3 : Reg)]).toNat < 16 ∧ 16 ≤ ((withRegs [(3, 16)]).v[(3 : Reg)]).toNat := by decide

theorem witness_LdBStoresDecimalDigits :
    ({ State.reset with i := 0xFFD } : State).i.toNat + 2 ≤ 0xFFF ∧
    0xFFF < ({ State.reset with i := 0xFFE } : State).i.toNat + 2 := by decide

theorem witness_LdMemStoresRegisters :
    ({ State.reset with i := 0xFF0 } : State).i.toNat + (15 : Reg).val ≤ 0xFFF ∧
    ({ State.reset with i := 0xFFF } : State).i.toNat + (0 : Reg).val ≤ 0xFFF ∧
    0xFFF < ({ State.reset with i := 0xFF1 } : State).i.toNat + (15 : Reg).val := by decide

theorem witness_LdVxMemLoadsRegisters :
    ({ State.reset with i := 0xFF0 } : State).i.toNat + (15 : Reg).val ≤ 0xFFF ∧
    ({ State.reset with i := 0xFFF } : State).i.toNat + (0 : Reg).val ≤ 0xFFF ∧
    0xFFF < ({ State.reset with i := 0xFFF } : State).i.toNat + (1 : Reg).val := by decide

/-- Clauses 1 and 2: the last ranges inside memory, with X = 0 and X = 15 and with FX33. -/
theorem witness_StoresAreSeenByTheNextFetch :
    (let s := { State.reset with i := 0xFFF }; s.i.toNat + (0 : Reg).val ≤ 0xFFF ∧ ∃ t, exec (.ldMemVx 0) s = .next t) ∧
    (let s := { State.reset with i := 0xFF0 }; s.i.toNat + (15 : Reg).val ≤ 0xFFF ∧ ∃ t, exec (.ldMemVx 15) s = .next t) ∧
    (let s := { State.reset with i := 0xFFD }; s.i.toNat + 2 ≤ 0xFFF ∧ ∃ t, exec (.ldBVx 3) s = .next t) :=
  ⟨⟨by decide, _, rfl⟩, ⟨by decide, _, rfl⟩, by decide, _, rfl⟩

/-- Clauses 3 and 4: 0xF155 at the last `pc` that leaves room, 0xFF55 at 0x200, and 0xF333 at the last `pc`. -/
theorem witness_StoresAreSeenByTheNextFetch_steps :
    (let s := withBytes 0xFFC [0xF1, 0x55] { withRegs [(0, 0x12), (1, 0x34)] with pc := 0xFFC, i := 0xFFE }
     s.fault = 0 ∧ decode s.fetchWord = .ldMemVx 1 ∧ 1 ≤ (1 : Reg).val ∧ s.i.toNat = s.pc.toNat + 2 ∧
       s.i.toNat + (1 : Reg).val ≤ 0xFFF) ∧
    (let s := withBytes 0x200 [0xFF, 0x55] { State.reset with i := 0x202 }
     s.fault = 0 ∧ decode s.fetchWord = .ldMemVx 15 ∧ 1 ≤ (15 : Reg).val ∧ s.i.toNat = s.pc.toNat + 2 ∧
       s.i.toNat + (15 : Reg).val ≤ 0xFFF) ∧
    (let s := withBytes 0xFFB [0xF3, 0x33] { State.reset with pc := 0xFFB, i := 0xFFD }
     s.fault = 0 ∧ decode s.fetchWord = .ldBVx 3 ∧ s.i.toNat = s.pc.toNat + 2 ∧ s.i.toNat + 2 ≤ 0xFFF) := by decide

/-- N = 0 at the greatest I, N = 1 and N = 15 at the last I in range, and one above it. -/
theorem witness_DrwTogglesTheSpriteCells :
    ((0 : RowCount) = 0) ∧ ({ State.reset with i := 0xFFF } : State).i.toNat + (1 : RowCount).val - 1 ≤ 0xFFF ∧
    ({ State.reset with i := 0xFF1 } : State).i.toNat + (15 : RowCount).val - 1 ≤ 0xFFF ∧
    (1 ≤ (15 : RowCount).val ∧ 0xFFF < ({ State.reset with i := 0xFF2 } : State).i.toNat + (15 : RowCount).val - 1) := by
  decide

theorem witness_DrawingTwiceRestoresTheDisplay :
    (0 : Reg) ≠ 15 ∧ (1 : Reg) ≠ 15 ∧ State.reset.i.toNat + (5 : RowCount).val - 1 ≤ 0xFFF ∧
    (∀ px py, Display.pixel State.reset.fb px py = false) ∧
    ∃ t, exec (.drw 0 1 5) State.reset = .next t ∧ ∃ u, exec (.drw 0 1 5) t = .next u := by
  refine ⟨by decide, by decide, by decide, fun px py => ?_, _, rfl, _, rfl⟩
  simp [Display.pixel, State.reset]

/-- No key; key 0 alone; key 15 alone. -/
theorem witness_LdVxKWaitsForAKey :
    (∀ k : Fin 16, State.reset.key.getLsbD k.val = false) ∧
    (let s := { State.reset with key := 0x0001 }
     s.key.getLsbD (0 : Fin 16).val = true ∧ ∀ j : Fin 16, j < 0 → s.key.getLsbD j.val = false) ∧
    (let s := { State.reset with key := 0x8000 }
     s.key.getLsbD (15 : Fin 16).val = true ∧ ∀ j : Fin 16, j < 15 → s.key.getLsbD j.val = false) := by decide

theorem witness_KeyWaitEndsOnlyByKeysResetOrLoad :
    (withBytes 0x200 [0xF3, 0x0A] State.reset).waitingForKey ∧ (0x8000 : BitVec 16) ≠ 0 :=
  ⟨⟨by decide, by decide, by decide, 3, by decide⟩, by decide⟩

/-- The exception of log 13: a load over the word at `pc` ends a key-wait. -/
theorem test_load_ends_a_key_wait :
    let t := (transact (.load [0x12, 0x00]) (withBytes 0x200 [0xF3, 0x0A] State.reset)).1
    decode t.fetchWord = .jp 0x200 := by decide

/-- Clause 1: `I` is not written by a draw. Clause 2: two states that agree on what a draw reads but not on `DT`. -/
theorem witness_AccessMatrixIsComplete :
    (∃ t, exec (.drw 0 1 5) State.reset = .next t ∧ ¬ instrWrites (.drw 0 1 5) State.reset .i) ∧
    (∃ t, exec (.drw 0 1 5) { State.reset with dt := 7 } = .next t) ∧
    (∀ e, instrReads (.drw 0 1 5) State.reset e → e.same State.reset { State.reset with dt := 7 }) ∧
    instrWrites (.drw 0 1 5) State.reset .fb := by
  refine ⟨⟨_, rfl, by simp [instrWrites, instructionFault, instrCompletedWrites, State.reset]⟩, ⟨_, rfl⟩, ?_, ?_⟩
  · intro e h
    simp only [instrReads, instructionFault, instrCompletedReads] at h
    rcases h with rfl | rfl | rfl | rfl | ⟨k, -, rfl⟩ <;> rfl
  · simp [instrWrites, instructionFault, instrCompletedWrites, State.reset]

/-- The faulting case: a RET with SP = 0 writes FAULT alone, and its check reads SP alone; two states that differ in the
stack agree on it. -/
theorem witness_AccessMatrixIsComplete_fault :
    let s' := { State.reset with stack := Vector.replicate 16 7 }
    (∃ t, exec .ret State.reset = .next t ∧ ¬ instrWrites .ret State.reset .pc) ∧ (∃ t, exec .ret s' = .next t) ∧
    State.reset.pc = s'.pc ∧ (∀ e, instrReads .ret State.reset e → e.same State.reset s') ∧
    instrWrites .ret State.reset .fault := by
  refine ⟨⟨_, rfl, by simp [instrWrites, instructionFault, State.reset]⟩, ⟨_, rfl⟩, rfl, ?_, ?_⟩
  · intro e h
    simp only [instrReads, instructionFault, State.reset] at h
    cases h
    rfl
  · simp [instrWrites, instructionFault, State.reset]

/-- A completed RET and one that faults. -/
theorem witness_ProgramCounterWritesAreTheListedOnes :
    (∃ t, exec .ret State.reset = .next t ∧ instructionFault .ret State.reset ≠ none) ∧
    (let s := { State.reset with sp := 16 }
     ∃ t, exec .ret s = .next t ∧ instructionFault .ret s = none ∧ (15 : Fin 16).val + 1 = s.sp.val) :=
  ⟨⟨_, rfl, by decide⟩, _, rfl, by decide, by decide⟩

theorem witness_FlagWritersLeaveZeroOrOne :
    (∃ t, exec (.addReg 15 15) State.reset = .next t ∧ instructionFault (.addReg 15 15) State.reset = none) ∧
    (∃ t, exec (.ldImm 14 1) State.reset = .next t ∧ (14 : Reg) ≠ 15) :=
  ⟨⟨_, rfl, by decide⟩, _, rfl, by decide⟩

/-- A RET with nothing on the stack. -/
theorem witness_FaultingStepChangesOnlyFault :
    let s := withBytes 0x200 [0x00, 0xEE] State.reset
    s.fault = 0 ∧ ∃ t, step s = .next t ∧ t.fault ≠ 0 :=
  ⟨by decide, _, rfl, by decide⟩

/-- One state for each cause, and one step without a fault. -/
theorem witness_FaultCausesAreExactlyTheFive :
    (let s := { State.reset with pc := 0x1000 }; s.fault = 0 ∧ after s (step s) = { s with fault := 1 }) ∧
    (let s := withBytes 0x200 [0x22, 0x00] { State.reset with sp := 16 }
     s.fault = 0 ∧ after s (step s) = { s with fault := 2 }) ∧
    (let s := withBytes 0x200 [0x00, 0xEE] State.reset; s.fault = 0 ∧ after s (step s) = { s with fault := 3 }) ∧
    (let s := withBytes 0x200 [0xF1, 0x55] { State.reset with i := 0xFFF }
     s.fault = 0 ∧ after s (step s) = { s with fault := 4 }) ∧
    (let s := withBytes 0x200 [0xE1, 0x9E] (withRegs [(1, 16)])
     s.fault = 0 ∧ after s (step s) = { s with fault := 5 }) ∧
    (after State.reset (step State.reset)).fault = 0 := by decide

theorem witness_FaultIsStickyUntilReset :
    ({ State.reset with fault := 5 } : State).fault ≠ 0 ∧
    Transaction.reset ∉ [Transaction.step, .tick, .load [1], .setKeys 1] ∧
    (List.replicate 3584 (1 : Byte)).length ≤ 3584 ∧ 3584 < (List.replicate 3585 (1 : Byte)).length := by
  simp only [List.length_replicate]; decide

/-- A state of the invariant away from reset: a full call stack, memory written, a latched fault, `pc` at its bound. -/
theorem witness_StepKeepsTheInvariant :
    let s := withBytes 0x300 [1, 2]
      { State.reset with sp := 16, pc := 0x10FE, stack := Vector.replicate 16 0x1000, fault := 5 }
    s.Inv ∧ ∃ t, step s = .next t := by
  refine ⟨⟨by decide, by decide, by decide, by decide⟩, _, rfl⟩

/-- The same for a running state: a call at the last `pc`. -/
theorem witness_StepKeepsTheInvariant_running :
    let s := withBytes 0xFFE [0x23, 0x00] { State.reset with pc := 0xFFE }
    s.Inv ∧ s.fault = 0 ∧ ∃ t, step s = .next t := by
  refine ⟨⟨by decide, by decide, by decide, by decide⟩, by decide, _, rfl⟩

theorem witness_EveryRunKeepsTheInvariant : State.Inv (withBytes 0x200 [0x12, 0x00] State.reset) :=
  ⟨by decide, by decide, by decide, by decide⟩

theorem witness_ReadGivesTheLastWrite :
    (0 : Nat) ≤ 0xFFF ∧ (0xFFF : Nat) ≤ 0xFFF ∧ Memory.wf [(0x000, 1), (0x300, 2), (0xFFF, 3)] := by decide

theorem witness_LoadInstallsTheImage :
    ([] : List Byte).length ≤ 3584 ∧ (List.replicate 3584 (1 : Byte)).length ≤ 3584 ∧
    3584 < (List.replicate 3585 (1 : Byte)).length := by
  simp only [List.length_replicate]; decide

theorem witness_ResetGivesTheListedValues :
    ∃ t, (transact .reset (withRegs [(1, 2)])).1 = t := ⟨_, rfl⟩

/-- (a) a latched fault; (b) 0x1200 at 0x200; (c) no step to come; in each case with ticks, keys and reads still to come, and
for (a) and (b) steps too. -/
theorem witness_AtAnEndOnlyTimersAndKeysMove :
    RunEnd.reached .fault { State.reset with fault := 4 } ([.step, .tick] ++ [.reset]) ∧
    RunEnd.reached .selfJump (withBytes 0x200 [0x12, 0x00] State.reset) ([.tick, .step, .setKeys 1, .step] ++ []) ∧
    RunEnd.reached .hostStops State.reset ([.tick, .readDisplay] ++ [.setKeys 2]) ∧
    (∀ ts ∈ [[Transaction.step, .tick], [.tick, .step, .setKeys 1, .step], [.tick, .readDisplay]],
      Transaction.reset ∉ ts ∧ ∀ bytes, Transaction.load bytes ∉ ts) := by
  simp only [RunEnd.reached_fault, RunEnd.reached_selfJump, RunEnd.reached_hostStops]
  refine ⟨by decide, ⟨by decide, by decide, 0x200, by decide, by decide⟩, by decide, ?_⟩
  intro ts h
  fin_cases h <;> simp

/-- S9: the program 0x1200, loaded and run, comes to end (b) after no step at all. -/
theorem test_self_jump_ends_the_run : RunEnd.endsRun .selfJump State.reset [.load [0x12, 0x00], .step] :=
  ⟨[.load [0x12, 0x00]], [.step], rfl, by decide, by decide, 0x200, by decide, by decide⟩

/-- Clause 1, an unlit cell under a 1 bit: glyph 0 on the blank display. Clause 1, lit cells alone: the row 0x80 over a lit
cell. Clause 1, no 1 bit: N = 0 at the greatest I. -/
theorem witness_SpriteDrawProperties :
    (0 : Reg) ≠ 15 ∧ (1 : Reg) ≠ 15 ∧
    (State.reset.i.toNat + (5 : RowCount).val - 1 ≤ 0xFFF ∧
      State.reset.spriteCovers 0 1 5 0 0 = true ∧ Display.pixel State.reset.fb 0 0 = false ∧
      ∃ t, exec (.drw 0 1 5) State.reset = .next t ∧ ∃ u, exec (.drw 0 1 5) t = .next u) ∧
    (let s := { withBytes 0x300 [0x80] State.reset with i := 0x300, fb := display [(0, 0)] }
     s.spriteBits 1 = 1 ∧ (∀ px py, s.spriteCovers 0 1 1 px py = true → Display.pixel s.fb px py = true) ∧
      ∃ t, exec (.drw 0 1 1) s = .next t ∧ ∃ u, exec (.drw 0 1 1) t = .next u) ∧
    ({ State.reset with i := 0xFFFF } : State).spriteBits 0 = 0 := by
  refine ⟨by decide, by decide, ⟨by decide, by decide, by decide, _, rfl, _, rfl⟩, ⟨by decide, ?_, _, rfl, _, rfl⟩, by decide⟩
  intro px py h
  rw [State.spriteCovers_iff] at h
  have hc : spriteCells 0 0 [0x80] = [(0, 0)] := by decide
  obtain ⟨rfl, rfl⟩ : px = 0 ∧ py = 0 := by
    have h' : (px, py) ∈ spriteCells 0 0 [0x80] := h
    rw [hc] at h'
    simpa using h'
  decide

/-- Clause 3: glyph 0 at (1, 2) from two different registers, addresses and origins that differ by a whole screen. -/
theorem witness_SpriteDrawProperties_depends :
    let s := withRegs [(0, 1), (1, 2)]
    let s' := { withBytes 0x300 [0xF0, 0x90] (withRegs [(2, 65), (3, 34)]) with i := 0x300 }
    s.i.toNat + (2 : RowCount).val - 1 ≤ 0xFFF ∧ s'.i.toNat + (2 : RowCount).val - 1 ≤ 0xFFF ∧ s.fb = s'.fb ∧
    (∀ r < (2 : RowCount).val, s.mem.read (s.i.toNat + r) = s'.mem.read (s'.i.toNat + r)) ∧
    (s.v[(0 : Reg)]).toNat % 64 = (s'.v[(2 : Reg)]).toNat % 64 ∧
    (s.v[(1 : Reg)]).toNat % 32 = (s'.v[(3 : Reg)]).toNat % 32 ∧
    (∃ t, exec (.drw 0 1 2) s = .next t) ∧ ∃ t', exec (.drw 2 3 2) s' = .next t' :=
  ⟨by decide, by decide, by decide, by decide, by decide, by decide, ⟨_, rfl⟩, _, rfl⟩

theorem witness_SafeRun : SafeRun State.reset [.step] := by
  intro us h
  rw [List.prefix_cons_iff] at h
  rcases h with rfl | ⟨l, rfl, h⟩
  · decide
  · rw [List.prefix_nil.mp h]; decide

end Sys2Proof.Tests
end

section
/-! The step of a running machine in terms of the two bytes at `pc` (20_memory.md section 4). -/
namespace Sys2Proof.Machine

/-- The fetched word is the big-endian word of the bytes at `pc` and `pc + 1` (R54). -/
theorem State.fetchWord_toNat (s : State) :
    s.fetchWord.toNat = 256 * (s.mem.read s.pc.toNat).toNat + (s.mem.read (s.pc.toNat + 1)).toNat := by
  have h : s.fetchWord.toNat = (s.mem.read s.pc.toNat).toNat * 2 ^ 8 + (s.mem.read (s.pc.toNat + 1)).toNat :=
    append_toNat _ _
  omega

/-- Settles O5: a running step executes the fetched word, whose value is that of the two bytes. -/
theorem stepExecutesTheBigEndianWordAtPc : Obligations.StepExecutesTheBigEndianWordAtPc := by
  intro s hrun hpc
  rw [← s.fetchWord_toNat, BitVec.ofNat_toNat, BitVec.setWidth_eq]
  exact step_of_running hrun hpc

end Sys2Proof.Machine
end

section
/-! What an instruction writes to `pc` (30_encoding.md section 5). -/
namespace Sys2Proof.Machine

/-- A skip on equality: over the next instruction iff the two bytes are equal (R101, R103). -/
theorem State.skipIf_beq_pc (s : State) (a b : Byte) :
    (s.skipIf (a == b)).pc = s.pc + if a = b then 4 else 2 := by
  simp only [State.skipIf_pc, beq_iff_eq]

/-- A skip on the negated condition has the two distances exchanged (R102, R104, R106). -/
theorem State.skipIf_not_pc (s : State) (c : Bool) :
    (s.skipIf (!c)).pc = s.pc + if c = true then 2 else 4 := by
  cases c <;> rfl

/-- A skip on inequality (R102, R104). -/
theorem State.skipIf_bne_pc (s : State) (a b : Byte) :
    (s.skipIf (a != b)).pc = s.pc + if a = b then 2 else 4 := by
  simp only [bne, State.skipIf_not_pc, beq_iff_eq]

/-- Settles O40: a faulting instruction leaves `pc`, and each completed state has the `pc` R78 lists for it. -/
theorem programCounterWritesAreTheListedOnes : Obligations.ProgramCounterWritesAreTheListedOnes := by
  intro i s t h
  rcases exec_cases h with ⟨c, hf, rfl⟩ | ⟨hn, hc⟩
  · exact ⟨fun _ => rfl, fun hn => absurd (hf.symm.trans hn) (Option.some_ne_none c)⟩
  refine ⟨fun hf => absurd hn hf, fun _ => ?_⟩
  cases i
  case ret =>
    obtain ⟨k, hk, rfl⟩ := hc
    intro j hj
    obtain rfl : j = k := Fin.ext (by omega)
    rfl
  case call => obtain ⟨_, _, rfl⟩ := hc; rfl
  case seImm | seReg => obtain rfl := hc; exact s.skipIf_beq_pc _ _
  case sneImm | sneReg => obtain rfl := hc; exact s.skipIf_bne_pc _ _
  case skp => obtain ⟨_, rfl⟩ := hc; exact s.skipIf_pc _
  case sknp => obtain ⟨_, rfl⟩ := hc; exact s.skipIf_not_pc _
  case ldVxK =>
    rcases hc with ⟨hk, rfl⟩ | ⟨_, hk, _, rfl⟩
    · exact (if_pos hk).symm
    · exact (if_neg hk).symm
  case ldFVx => rcases hc with ⟨_, rfl⟩ | ⟨_, rfl⟩ <;> rfl
  case drw | ldBVx | ldMemVx | ldVxMem => obtain ⟨_, rfl⟩ := hc; rfl
  all_goals obtain rfl := hc; rfl

end Sys2Proof.Machine
end

section
/-! Which words decode to an instruction: its constructor determines its row of the opcode map (30_encoding.md R76). -/
namespace Sys2Proof

/-- A row builds one constructor, whatever word the operands come from. -/
theorem build_ctorIdx : ∀ r ∈ opcodeMap, ∀ w, (r.build w).ctorIdx = (r.build 0).ctorIdx := by
  intro r hr w
  fin_cases hr <;> rfl

/-- Rows that build the same constructor fix the same bits alike. -/
theorem row_of_ctorIdx : ∀ q ∈ opcodeMap, ∀ r ∈ opcodeMap, (q.build 0).ctorIdx = (r.build 0).ctorIdx →
    q.mask = r.mask ∧ q.pattern = r.pattern := by decide

/-- No row builds UNDEF (R77). -/
theorem build_ctorIdx_ne_undef : ∀ r ∈ opcodeMap, (r.build 0).ctorIdx ≠ (Instr.undef 0).ctorIdx := by decide

/-- `decode_eq_iff` for an instruction of the constructor that the row builds. -/
theorem decode_eq_iff_of_ctorIdx {r : OpcodeRow} (hr : r ∈ opcodeMap) {i : Instr}
    (hi : i.ctorIdx = (r.build 0).ctorIdx) (w : Word) :
    decode w = i ↔ w &&& r.mask = r.pattern ∧ r.build w = i := by
  refine decode_eq_iff hr (fun q hq w' hb => ?_) (fun w' hu => ?_) w
  · have hc : (q.build 0).ctorIdx = (r.build 0).ctorIdx := by rw [← build_ctorIdx q hq w', hb, hi]
    exact row_of_ctorIdx q hq r hr hc
  · subst hu
    exact build_ctorIdx_ne_undef r hr hi.symm

/-- `decode_eq_iff` for a constructor `mk` of two operands, which the row takes from the fields `fa` and `fb`. -/
theorem decode_eq_iff_of_two_operands {α β : Type} {mask pattern : Word} {mk : α → β → Instr} {fa : Word → α}
    {fb : Word → β} (hr : ⟨mask, pattern, fun w => mk (fa w) (fb w)⟩ ∈ opcodeMap) (hmk : Function.Injective2 mk)
    (hc : ∀ a b, (mk a b).ctorIdx = (mk (fa 0) (fb 0)).ctorIdx) (w : Word) (a : α) (b : β) :
    decode w = mk a b ↔ w &&& mask = pattern ∧ a = fa w ∧ b = fb w := by
  rw [decode_eq_iff_of_ctorIdx hr (hc a b), hmk.eq_iff, eq_comm (a := fa w), eq_comm (a := fb w)]

theorem decode_eq_seImm_iff : ∀ (w : Word) (x : Reg) (nn : Byte),
    decode w = .seImm x nn ↔ w &&& 0xF000 = 0x3000 ∧ x = fieldX w ∧ nn = fieldNN w :=
  decode_eq_iff_of_two_operands (by simp [opcodeMap, rowsXI]) (fun _ _ _ _ => Instr.seImm.inj) (fun _ _ => rfl)

theorem decode_eq_sneImm_iff : ∀ (w : Word) (x : Reg) (nn : Byte),
    decode w = .sneImm x nn ↔ w &&& 0xF000 = 0x4000 ∧ x = fieldX w ∧ nn = fieldNN w :=
  decode_eq_iff_of_two_operands (by simp [opcodeMap, rowsXI]) (fun _ _ _ _ => Instr.sneImm.inj) (fun _ _ => rfl)

theorem decode_eq_seReg_iff : ∀ (w : Word) (x y : Reg),
    decode w = .seReg x y ↔ w &&& 0xF00F = 0x5000 ∧ x = fieldX w ∧ y = fieldY w :=
  decode_eq_iff_of_two_operands (by simp [opcodeMap, rowsXY]) (fun _ _ _ _ => Instr.seReg.inj) (fun _ _ => rfl)

theorem decode_eq_sneReg_iff : ∀ (w : Word) (x y : Reg),
    decode w = .sneReg x y ↔ w &&& 0xF00F = 0x9000 ∧ x = fieldX w ∧ y = fieldY w :=
  decode_eq_iff_of_two_operands (by simp [opcodeMap, rowsXY]) (fun _ _ _ _ => Instr.sneReg.inj) (fun _ _ => rfl)

end Sys2Proof
end

section
/-! The skips on a comparison: which words they are, and the whole next state (41_skips.md R100 to R104). -/
namespace Sys2Proof.Machine

/-- A skip writes `pc` and nothing else (R100). -/
theorem State.skipIf_eq (s : State) (c : Bool) :
    s.skipIf c = { s with pc := if c = true then s.pc + 4 else s.pc + 2 } := by
  cases c <;> rfl

/-- The next state of a skip on equality (R101, R103). -/
theorem State.skipIf_beq (s : State) (a b : Byte) :
    s.skipIf (a == b) = { s with pc := if a = b then s.pc + 4 else s.pc + 2 } := by
  simp only [State.skipIf_eq, beq_iff_eq]

/-- The next state of a skip on inequality (R102, R104). -/
theorem State.skipIf_bne (s : State) (a b : Byte) :
    s.skipIf (a != b) = { s with pc := if a ≠ b then s.pc + 4 else s.pc + 2 } := by
  simp only [State.skipIf_eq, bne_iff_ne]

/-- Settles O13: each word's operands are its fields, and each skip is one on the comparison of `V[X]` with NN. -/
theorem skipsOnImmediateCompare : Obligations.SkipsOnImmediateCompare :=
  ⟨decode_eq_seImm_iff, decode_eq_sneImm_iff,
    fun x nn s => congrArg Host.Outcome.next (s.skipIf_beq s.v[x] nn),
    fun x nn s => congrArg Host.Outcome.next (s.skipIf_bne s.v[x] nn)⟩

/-- Settles O14: each word's operands are its fields, and each skip is one on the comparison of `V[X]` with `V[Y]`. -/
theorem skipsOnRegisterCompare : Obligations.SkipsOnRegisterCompare :=
  ⟨decode_eq_seReg_iff, decode_eq_sneReg_iff,
    fun x y s => congrArg Host.Outcome.next (s.skipIf_beq s.v[x] s.v[y]),
    fun x y s => congrArg Host.Outcome.next (s.skipIf_bne s.v[x] s.v[y])⟩

end Sys2Proof.Machine
end

section
/-! The immediate loads and additions: which words they are, and the whole next state (42_immediate.md R110, R111). -/
namespace Sys2Proof

theorem decode_eq_ldImm_iff : ∀ (w : Word) (x : Reg) (nn : Byte),
    decode w = .ldImm x nn ↔ w &&& 0xF000 = 0x6000 ∧ x = fieldX w ∧ nn = fieldNN w :=
  decode_eq_iff_of_two_operands (by simp [opcodeMap, rowsXI]) (fun _ _ _ _ => Instr.ldImm.inj) (fun _ _ => rfl)

theorem decode_eq_addImm_iff : ∀ (w : Word) (x : Reg) (nn : Byte),
    decode w = .addImm x nn ↔ w &&& 0xF000 = 0x7000 ∧ x = fieldX w ∧ nn = fieldNN w :=
  decode_eq_iff_of_two_operands (by simp [opcodeMap, rowsXI]) (fun _ _ _ _ => Instr.addImm.inj) (fun _ _ => rfl)

namespace Machine

/-- The next state of an instruction that writes one register and goes on to the next word (R78). -/
theorem State.setReg_advance (s : State) (x : Reg) (b : Byte) :
    (s.setReg x b).advance = { s with v := s.v.set x b, pc := s.pc + 2 } := rfl

/-- The sum of two bytes wraps modulo 256 (R111). -/
theorem sumByte_toNat (a b : Byte) : (sumByte a b).toNat = (a.toNat + b.toNat) % 256 :=
  BitVec.toNat_ofNat (a.toNat + b.toNat) 8

/-- Settles O16: the word's operands are its fields, and NN is the byte written to `V[X]`. -/
theorem ldImmLoadsTheImmediate : Obligations.LdImmLoadsTheImmediate :=
  ⟨decode_eq_ldImm_iff, fun x nn s => congrArg Host.Outcome.next (s.setReg_advance x nn)⟩

/-- Settles O17: the word's operands are its fields, and the byte written to `V[X]` is the sum without its carry. -/
theorem addImmWrapsWithoutFlag : Obligations.AddImmWrapsWithoutFlag :=
  ⟨decode_eq_addImm_iff, fun x nn s => ⟨sumByte s.v[x] nn, sumByte_toNat s.v[x] nn,
    congrArg Host.Outcome.next (s.setReg_advance x (sumByte s.v[x] nn))⟩⟩

end Machine
end Sys2Proof
end

section
/-! The register copy and the logical operations: which words they are, and the whole next state
(43_alu.md R116 to R119). -/
namespace Sys2Proof

theorem decode_eq_ldReg_iff : ∀ (w : Word) (x y : Reg),
    decode w = .ldReg x y ↔ w &&& 0xF00F = 0x8000 ∧ x = fieldX w ∧ y = fieldY w :=
  decode_eq_iff_of_two_operands (by simp [opcodeMap, rowsXY]) (fun _ _ _ _ => Instr.ldReg.inj) (fun _ _ => rfl)

theorem decode_eq_or_iff : ∀ (w : Word) (x y : Reg),
    decode w = .or x y ↔ w &&& 0xF00F = 0x8001 ∧ x = fieldX w ∧ y = fieldY w :=
  decode_eq_iff_of_two_operands (by simp [opcodeMap, rowsXY]) (fun _ _ _ _ => Instr.or.inj) (fun _ _ => rfl)

theorem decode_eq_and_iff : ∀ (w : Word) (x y : Reg),
    decode w = .and x y ↔ w &&& 0xF00F = 0x8002 ∧ x = fieldX w ∧ y = fieldY w :=
  decode_eq_iff_of_two_operands (by simp [opcodeMap, rowsXY]) (fun _ _ _ _ => Instr.and.inj) (fun _ _ => rfl)

theorem decode_eq_xor_iff : ∀ (w : Word) (x y : Reg),
    decode w = .xor x y ↔ w &&& 0xF00F = 0x8003 ∧ x = fieldX w ∧ y = fieldY w :=
  decode_eq_iff_of_two_operands (by simp [opcodeMap, rowsXY]) (fun _ _ _ _ => Instr.xor.inj) (fun _ _ => rfl)

namespace Machine

/-- Settles O19: the word's operands are its fields, and `V[Y]` is the byte written to `V[X]`. -/
theorem ldRegCopiesARegister : Obligations.LdRegCopiesARegister :=
  ⟨decode_eq_ldReg_iff, fun x y s => congrArg Host.Outcome.next (s.setReg_advance x s.v[y])⟩

/-- Settles O20: each word's operands are its fields, and the byte written to `V[X]` is the operands' bitwise or, and,
exclusive or, whose bits the library's `getLsbD` lemmas give. -/
theorem logicalOperationsWorkBitwise : Obligations.LogicalOperationsWorkBitwise :=
  ⟨decode_eq_or_iff, decode_eq_and_iff, decode_eq_xor_iff,
    fun x y s => ⟨s.v[x] ||| s.v[y], fun _ => BitVec.getLsbD_or,
      congrArg Host.Outcome.next (s.setReg_advance x (s.v[x] ||| s.v[y]))⟩,
    fun x y s => ⟨s.v[x] &&& s.v[y], fun _ => BitVec.getLsbD_and,
      congrArg Host.Outcome.next (s.setReg_advance x (s.v[x] &&& s.v[y]))⟩,
    fun x y s => ⟨s.v[x] ^^^ s.v[y], fun _ => BitVec.getLsbD_xor,
      congrArg Host.Outcome.next (s.setReg_advance x (s.v[x] ^^^ s.v[y]))⟩⟩

end Machine
end Sys2Proof
end

section
/-! The loads of the index register: which words they are, and the whole next state (44_index_memory.md R130, R132). -/
namespace Sys2Proof

/-- `decode_eq_iff` for a constructor `mk` of one operand, which the row takes from the field `fa`. -/
theorem decode_eq_iff_of_one_operand {α : Type} {mask pattern : Word} {mk : α → Instr} {fa : Word → α}
    (hr : ⟨mask, pattern, fun w => mk (fa w)⟩ ∈ opcodeMap) (hmk : Function.Injective mk)
    (hc : ∀ a, (mk a).ctorIdx = (mk (fa 0)).ctorIdx) (w : Word) (a : α) :
    decode w = mk a ↔ w &&& mask = pattern ∧ a = fa w := by
  rw [decode_eq_iff_of_ctorIdx hr (hc a), hmk.eq_iff, eq_comm (a := fa w)]

theorem decode_eq_ldI_iff : ∀ (w : Word) (nnn : Addr12),
    decode w = .ldI nnn ↔ w &&& 0xF000 = 0xA000 ∧ nnn = fieldNNN w :=
  decode_eq_iff_of_one_operand (by simp [opcodeMap, rowsZA]) (fun _ _ => Instr.ldI.inj) (fun _ => rfl)

theorem decode_eq_ldFVx_iff : ∀ (w : Word) (x : Reg),
    decode w = .ldFVx x ↔ w &&& 0xF0FF = 0xF029 ∧ x = fieldX w :=
  decode_eq_iff_of_one_operand (by simp [opcodeMap, rowsXF]) (fun _ _ => Instr.ldFVx.inj) (fun _ => rfl)

namespace Machine

/-- The next state of an instruction that writes `I` and goes on to the next word (R78). -/
theorem State.setI_advance (s : State) (a : Word) :
    (s.setI a).advance = { s with i := a, pc := s.pc + 2 } := rfl

/-- Five times a byte fits in 16 bits, so the glyph's address does not wrap (R132). -/
theorem glyphAddress_toNat (d : Byte) : (glyphAddress d).toNat = 5 * d.toNat := by
  have hd := d.isLt
  rw [glyphAddress, BitVec.toNat_ofNat, Nat.mod_eq_of_lt (by omega)]

/-- The digit has a glyph: `I` gets its address (R132). -/
theorem exec_ldFVx_of_digit {x : Reg} {s : State} (h : (s.v[x]).toNat < 16) :
    exec (.ldFVx x) s = .next { s with i := glyphAddress s.v[x], pc := s.pc + 2 } :=
  congrArg Host.Outcome.next ((if_pos h).trans (s.setI_advance (glyphAddress s.v[x])))

/-- No digit, no glyph: `I` is kept (R132). -/
theorem exec_ldFVx_of_no_digit {x : Reg} {s : State} (h : 16 ≤ (s.v[x]).toNat) :
    exec (.ldFVx x) s = .next { s with pc := s.pc + 2 } :=
  congrArg Host.Outcome.next (if_neg h.not_gt)

/-- Settles O25: the word's operand is its field NNN, whose zero extension is written to `I`. -/
theorem ldILoadsTheAddress : Obligations.LdILoadsTheAddress :=
  ⟨decode_eq_ldI_iff, fun nnn s => congrArg Host.Outcome.next (s.setI_advance (addressWord nnn))⟩

/-- Settles O27: the word's operand is its field X, and the two clauses are the two branches of the digit check. -/
theorem ldFPointsAtTheGlyph : Obligations.LdFPointsAtTheGlyph :=
  ⟨decode_eq_ldFVx_iff,
    fun x s h => ⟨glyphAddress s.v[x], glyphAddress_toNat s.v[x], exec_ldFVx_of_digit h⟩,
    fun _ _ h => exec_ldFVx_of_no_digit h⟩

end Machine
end Sys2Proof
end

section
/-! CLS: which word it is, and the whole next state (45_display.md R140). -/
namespace Sys2Proof

/-- `decode_eq_iff` for an instruction without operands, whose row fixes all 16 bits of the word. -/
theorem decode_eq_iff_of_no_operand {pattern : Word} {i : Instr} (hr : ⟨0xFFFF, pattern, fun _ => i⟩ ∈ opcodeMap)
    (w : Word) : decode w = i ↔ w = pattern := by
  have hmask : w &&& 0xFFFF = w := BitVec.and_allOnes
  rw [decode_eq_iff_of_ctorIdx hr rfl, hmask, and_iff_left rfl]

theorem decode_eq_cls_iff : ∀ w : Word, decode w = .cls ↔ w = 0x00E0 :=
  decode_eq_iff_of_no_operand (by simp [opcodeMap, rowsZA])

namespace Machine

/-- Every row of the blank display is the zero word, so every cell is 0 (R140). -/
@[simp] theorem Display.pixel_blank (x : Fin 64) (y : Fin 32) : Display.pixel Display.blank x y = false := by
  have hrow : Display.blank[y] = 0#64 := Vector.getElem_replicate y.isLt
  rw [Display.pixel, hrow, BitVec.getLsbD_zero]

/-- The next state of an instruction that writes FB and goes on to the next word (R78). -/
theorem State.setFb_advance (s : State) (d : Display) :
    (s.setFb d).advance = { s with fb := d, pc := s.pc + 2 } := rfl

/-- Settles O32: the row of CLS fixes the whole word, and the display written is the blank one. -/
theorem clsClearsEveryCell : Obligations.ClsClearsEveryCell :=
  ⟨decode_eq_cls_iff, fun s => ⟨{ s with fb := Display.blank, pc := s.pc + 2 },
    congrArg Host.Outcome.next (s.setFb_advance Display.blank), rfl, Display.pixel_blank⟩⟩

end Machine
end Sys2Proof
end

section
/-! `read_display`: the length of its list and the cell at each index (60_exceptions.md R174). -/
namespace Sys2Proof
namespace Machine

@[simp] theorem State.readDisplay_length (s : State) : s.readDisplay.length = 2048 := by
  rw [State.readDisplay, List.length_map, List.length_range]

/-- Below 2048, the cell at index `k` is column `k mod 64` of row `k / 64` (R174). -/
theorem State.readDisplay_getElem? (s : State) {k : Nat} (hk : k < 2048) :
    s.readDisplay[k]? = some (Display.pixel s.fb (Fin.ofNat 64 k) (Fin.ofNat 32 (k / 64))) := by
  rw [State.readDisplay, List.getElem?_map, List.getElem?_range hk, Option.map_some]

/-- Column and row are the remainder and the quotient of the index `x + 64*y` by 64. -/
theorem State.readDisplay_cell (s : State) (x : Fin 64) (y : Fin 32) :
    s.readDisplay[x.val + 64 * y.val]? = some (Display.pixel s.fb x y) := by
  have hcol : Fin.ofNat 64 (x.val + 64 * y.val) = x := Fin.ext (by simp only [Fin.val_ofNat]; omega)
  have hrow : Fin.ofNat 32 ((x.val + 64 * y.val) / 64) = y := Fin.ext (by simp only [Fin.val_ofNat]; omega)
  rw [s.readDisplay_getElem? (by omega), hcol, hrow]

/-- Settles O53: `read_display` answers the list of cells, the other two reads the fields themselves. -/
theorem readsReturnTheStateUnchanged : Obligations.ReadsReturnTheStateUnchanged :=
  fun s => ⟨⟨s.readDisplay, rfl, s.readDisplay_length, s.readDisplay_cell⟩, rfl, rfl⟩

end Machine
end Sys2Proof
end

section
/-! The encoder and the decoder are inverse to each other; the unrecognised words (30_encoding.md sections 2 to 4). -/
namespace Sys2Proof

/-! ## Decoding an encoded instruction -/

/-- The round trip of every constructor, gathered from the family `Laws.RoundTrip`. -/
theorem decode_encode : ∀ i : Instr, i.wf = true → decode (encode i) = i
  | .cls => Laws.RoundTrip.cls
  | .ret => Laws.RoundTrip.ret
  | .jp nnn => Laws.RoundTrip.jp nnn
  | .call nnn => Laws.RoundTrip.call nnn
  | .seImm x nn => Laws.RoundTrip.seImm x nn
  | .sneImm x nn => Laws.RoundTrip.sneImm x nn
  | .seReg x y => Laws.RoundTrip.seReg x y
  | .ldImm x nn => Laws.RoundTrip.ldImm x nn
  | .addImm x nn => Laws.RoundTrip.addImm x nn
  | .ldReg x y => Laws.RoundTrip.ldReg x y
  | .or x y => Laws.RoundTrip.or x y
  | .and x y => Laws.RoundTrip.and x y
  | .xor x y => Laws.RoundTrip.xor x y
  | .addReg x y => Laws.RoundTrip.addReg x y
  | .sub x y => Laws.RoundTrip.sub x y
  | .shr x y => Laws.RoundTrip.shr x y
  | .subn x y => Laws.RoundTrip.subn x y
  | .shl x y => Laws.RoundTrip.shl x y
  | .sneReg x y => Laws.RoundTrip.sneReg x y
  | .ldI nnn => Laws.RoundTrip.ldI nnn
  | .jpV0 nnn => Laws.RoundTrip.jpV0 nnn
  | .rnd x nn => Laws.RoundTrip.rnd x nn
  | .drw x y n => Laws.RoundTrip.drw x y n
  | .skp x => Laws.RoundTrip.skp x
  | .sknp x => Laws.RoundTrip.sknp x
  | .ldVxDt x => Laws.RoundTrip.ldVxDt x
  | .ldVxK x => Laws.RoundTrip.ldVxK x
  | .ldDtVx x => Laws.RoundTrip.ldDtVx x
  | .ldStVx x => Laws.RoundTrip.ldStVx x
  | .addIVx x => Laws.RoundTrip.addIVx x
  | .ldFVx x => Laws.RoundTrip.ldFVx x
  | .ldBVx x => Laws.RoundTrip.ldBVx x
  | .ldMemVx x => Laws.RoundTrip.ldMemVx x
  | .ldVxMem x => Laws.RoundTrip.ldVxMem x
  | .undef w => Laws.RoundTrip.undef w

/-- Settles O1: the round trip of each constructor. -/
theorem decodeOfEncodeIsIdentity : Obligations.DecodeOfEncodeIsIdentity := decode_encode

/-! ## Encoding a decoded word: a word is made of its row's pattern and its fields -/

theorem encodeA_fields {f : BitVec 4} {p w : Word} (h : w &&& 0xF000 = p) (hp : p &&& 0xF000 = p)
    (hf : f.toNat = p.toNat / 4096) : encodeA f (fieldNNN w) = w := by
  rw [mask_F000 w hp] at h
  apply BitVec.eq_of_toNat_eq
  rw [encodeA_toNat, fieldNNN_toNat]
  omega

theorem encodeXI_fields {f : BitVec 4} {p w : Word} (h : w &&& 0xF000 = p) (hp : p &&& 0xF000 = p)
    (hf : f.toNat = p.toNat / 4096) : encodeXI f (fieldX w) (fieldNN w) = w := by
  rw [mask_F000 w hp] at h
  apply BitVec.eq_of_toNat_eq
  rw [encodeXI_toNat, fieldX_val, fieldNN_toNat]
  omega

theorem encodeXI_fieldX {f : BitVec 4} {nn : Byte} {p w : Word} (h : w &&& 0xF0FF = p) (hp : p &&& 0xF0FF = p)
    (hf : f.toNat = p.toNat / 4096) (hn : nn.toNat = p.toNat % 256) : encodeXI f (fieldX w) nn = w := by
  rw [mask_F0FF w hp] at h
  apply BitVec.eq_of_toNat_eq
  rw [encodeXI_toNat, fieldX_val]
  omega

theorem encodeXY_fields {f n : BitVec 4} {p w : Word} (h : w &&& 0xF00F = p) (hp : p &&& 0xF00F = p)
    (hf : f.toNat = p.toNat / 4096) (hn : n.toNat = p.toNat % 16) : encodeXY f (fieldX w) (fieldY w) n = w := by
  rw [mask_F00F w hp] at h
  apply BitVec.eq_of_toNat_eq
  rw [encodeXY_toNat, fieldX_val, fieldY_val]
  omega

theorem encodeXYN_fields {f : BitVec 4} {p w : Word} (h : w &&& 0xF000 = p) (hp : p &&& 0xF000 = p)
    (hf : f.toNat = p.toNat / 4096) :
    encodeXY f (fieldX w) (fieldY w) (BitVec.ofFin (w := 4) (fieldN w)) = w := by
  rw [mask_F000 w hp] at h
  apply BitVec.eq_of_toNat_eq
  have hN : (BitVec.ofFin (w := 4) (fieldN w)).toNat = w.toNat % 16 := fieldN_val w
  rw [encodeXY_toNat, fieldX_val, fieldY_val, hN]
  omega

theorem encode_build_rowsZA : ∀ r ∈ rowsZA, ∀ w, w &&& r.mask = r.pattern → encode (r.build w) = w := by
  intro r hr w h
  fin_cases hr
  · exact h.symm.trans BitVec.and_allOnes
  · exact h.symm.trans BitVec.and_allOnes
  all_goals exact encodeA_fields h rfl rfl

theorem encode_build_rowsXI : ∀ r ∈ rowsXI, ∀ w, w &&& r.mask = r.pattern → encode (r.build w) = w := by
  intro r hr w h
  fin_cases hr
  on_goal 6 => exact encodeXYN_fields h rfl rfl
  all_goals exact encodeXI_fields h rfl rfl

theorem encode_build_rowsXY : ∀ r ∈ rowsXY, ∀ w, w &&& r.mask = r.pattern → encode (r.build w) = w := by
  intro r hr w h
  fin_cases hr <;> exact encodeXY_fields h rfl rfl rfl

theorem encode_build_rowsXF : ∀ r ∈ rowsXF, ∀ w, w &&& r.mask = r.pattern → encode (r.build w) = w := by
  intro r hr w h
  fin_cases hr <;> exact encodeXI_fieldX h rfl rfl rfl

/-- A word that a row accepts is the encoding of the instruction the row builds from it. -/
theorem encode_build {r : OpcodeRow} (hr : r ∈ opcodeMap) {w : Word} (h : w &&& r.mask = r.pattern) :
    encode (r.build w) = w := by
  simp only [opcodeMap, List.mem_append] at hr
  rcases hr with ((hr | hr) | hr) | hr
  · exact encode_build_rowsZA r hr w h
  · exact encode_build_rowsXI r hr w h
  · exact encode_build_rowsXY r hr w h
  · exact encode_build_rowsXF r hr w h

/-- What a row builds is well formed: it is not UNDEF. -/
theorem build_wf : ∀ r ∈ opcodeMap, ∀ w, (r.build w).wf = true := by
  intro r hr w
  fin_cases hr <;> rfl

/-! ## The unrecognised words -/

/-- The list of 30_encoding.md section 4 as arithmetic on the word's value. -/
theorem unrecognised_iff (w : Word) : unrecognised w = true ↔
    (w.toNat / 4096 = 0x0 ∧ w ≠ 0x00E0 ∧ w ≠ 0x00EE) ∨
    (w.toNat / 4096 = 0x5 ∧ w.toNat % 16 ≠ 0) ∨
    (w.toNat / 4096 = 0x8 ∧ w.toNat % 16 ∈ [0x8, 0x9, 0xA, 0xB, 0xC, 0xD, 0xF]) ∨
    (w.toNat / 4096 = 0x9 ∧ w.toNat % 16 ≠ 0) ∨
    (w.toNat / 4096 = 0xE ∧ w.toNat % 256 ∉ [0x9E, 0xA1]) ∨
    (w.toNat / 4096 = 0xF ∧ w.toNat % 256 ∉ [0x07, 0x0A, 0x15, 0x18, 0x1E, 0x29, 0x33, 0x55, 0x65]) := by
  have hf : (w.extractLsb' 12 4).toNat = w.toNat / 4096 := by
    have := w.isLt
    simp only [BitVec.extractLsb'_toNat, Nat.shiftRight_eq_div_pow]; omega
  have hn : (w.extractLsb' 0 4).toNat = w.toNat % 16 := by simp
  have hnn : (w.extractLsb' 0 8).toNat = w.toNat % 256 := by simp
  unfold unrecognised
  rw [hf]
  generalize w.toNat / 4096 = f
  split
  case h_7 =>
    refine iff_of_false Bool.false_ne_true ?_
    rintro (⟨h, -⟩ | ⟨h, -⟩ | ⟨h, -⟩ | ⟨h, -⟩ | ⟨h, -⟩ | ⟨h, -⟩) <;> contradiction
  all_goals simp [← BitVec.toNat_inj, and_assoc, or_assoc]

/-- A word no row accepts is on the list (the converse of `no_row_of_unrecognised`): in each family the rows of that
family exclude every other word. -/
theorem unrecognised_of_no_row {w : Word} (h : ∀ r ∈ opcodeMap, w &&& r.mask ≠ r.pattern) :
    unrecognised w = true := by
  simp only [opcodeMap, rowsZA, rowsXI, rowsXY, rowsXF, List.cons_append, List.nil_append, List.forall_mem_cons] at h
  simp (disch := decide) only [mask_F000, mask_F00F, mask_F0FF, mask_FFFF, ne_eq] at h
  rw [unrecognised_iff]
  have hf : w.toNat / 4096 < 16 := by omega
  interval_cases w.toNat / 4096
  on_goal 9 => simp at h ⊢; omega
  all_goals simp_all [← BitVec.toNat_inj]

/-- Which words are UNDEF: those on the list (30_encoding.md section 4). -/
theorem decode_eq_undef_iff (w : Word) : decode w = .undef w ↔ unrecognised w = true := by
  refine ⟨fun hd => ?_, Laws.RoundTrip.undef w⟩
  rcases decode_cases w with ⟨r, hr, _, hb⟩ | ⟨hno, _⟩
  · have hidx := congrArg Instr.ctorIdx (hb.symm.trans hd)
    rw [build_ctorIdx r hr w] at hidx
    exact absurd hidx (build_ctorIdx_ne_undef r hr)
  · exact unrecognised_of_no_row hno

/-- Settles O2: a word that a row accepts is made of the row's pattern and its fields, and a word that no row accepts is
kept by UNDEF. -/
theorem encodeOfDecodeIsIdentity : Obligations.EncodeOfDecodeIsIdentity := by
  intro w
  rcases decode_cases w with ⟨r, hr, hw, hd⟩ | ⟨hno, hd⟩
  · exact hd ▸ ⟨build_wf r hr w, encode_build hr hw⟩
  · exact hd ▸ ⟨unrecognised_of_no_row hno, rfl⟩

namespace Machine

/-! ## The table of 30_encoding.md section 3 and the rows of the decoder -/

/-- The table and the opcode map are the same pairs in another order. -/
theorem specPatterns_perm : (opcodeMap.map fun r => (r.mask, r.pattern)).Perm specPatterns := by decide

theorem mem_specPatterns {r : OpcodeRow} (hr : r ∈ opcodeMap) : (r.mask, r.pattern) ∈ specPatterns :=
  specPatterns_perm.mem_iff.mp (List.mem_map_of_mem hr)

/-- No word matches two pairs of the table. -/
theorem specPatterns_exclusive (w : Word) :
    specPatterns.Pairwise (fun p q => ¬ (w &&& p.1 = p.2 ∧ w &&& q.1 = q.2)) := by
  refine specPatterns_perm.pairwise ?_ fun h ⟨hp, hq⟩ => h ⟨hq, hp⟩
  refine List.pairwise_map.mpr (opcodeMap_disjoint.imp fun {p q} h ⟨hp, hq⟩ => ?_)
  have hq' := accepts_exclusive h ((p.accepts_iff w).mpr hp)
  rw [(q.accepts_iff w).mpr hq] at hq'
  exact Bool.noConfusion hq'

/-- Of a list in which no two elements meet a test, at most one meets it. -/
theorem length_filter_le_one {α : Type} {l : List α} {p : α → Bool}
    (h : l.Pairwise fun a b => ¬ (p a = true ∧ p b = true)) : (l.filter p).length ≤ 1 := by
  have hp : ∀ a ∈ l.filter p, p a = true := fun a ha => (List.mem_filter.mp ha).2
  have hw := h.filter p
  match hl : l.filter p with
  | [] | [_] => simp
  | a :: b :: _ =>
    rw [hl] at hp hw
    have hab := (List.pairwise_cons.mp hw).1 b (by simp)
    exact absurd ⟨hp a (by simp), hp b (by simp)⟩ hab

/-- Settles O3: the table's pairs are disjoint because the decoder's rows are, and UNDEF's words are those of
`unrecognised`. -/
theorem unrecognisedWordsAreTheListedOnes : Obligations.UnrecognisedWordsAreTheListedOnes := by
  refine ⟨fun w => length_filter_le_one ?_, fun w => (decode_eq_undef_iff w).trans (unrecognised_iff w)⟩
  simpa only [beq_iff_eq] using specPatterns_exclusive w

/-- Settles O4: the decoder evaluated on the seven words. -/
theorem sampleWordsDecode : Obligations.SampleWordsDecode := by
  unfold Obligations.SampleWordsDecode
  decide

/-- Settles O12: a word outside the table matches no row, and the no-op is an advance. -/
theorem undefOnlyAdvances : Obligations.UndefOnlyAdvances :=
  ⟨fun _ h => decode_of_no_row fun _ hr => h _ (mem_specPatterns hr), fun _ _ => rfl⟩

end Machine
end Sys2Proof
end

section
/-! What one step can do, and the faults (30_encoding.md R70, 60_exceptions.md section 2). -/
namespace Sys2Proof.Machine

/-- Every instruction answers a next state: its fault latched, or its completed state. -/
theorem exec_total (i : Instr) (s : State) : ∃ t, exec i s = .next t := by
  cases hf : instructionFault i s with
  | some c => exact ⟨_, exec_of_fault hf⟩
  | none =>
    obtain ⟨t, ht, _⟩ := exec_of_no_fault hf
    exact ⟨t, ht⟩

/-- Everything a step can do: nothing on a halted machine, the fetch fault, or the fetched instruction. -/
theorem step_cases {s t : State} (h : step s = .next t) :
    (s.fault ≠ 0 ∧ t = s) ∨ (s.fault = 0 ∧ 0xFFE < s.pc.toNat ∧ t = { s with fault := 1 }) ∨
    (s.fault = 0 ∧ s.pc.toNat ≤ 0xFFE ∧ exec (decode s.fetchWord) s = .next t) := by
  by_cases hrun : s.fault = 0
  · by_cases hpc : s.pc.toNat ≤ 0xFFE
    · exact .inr (.inr ⟨hrun, hpc, (step_of_running hrun hpc).symm.trans h⟩)
    · rw [step_of_unfetchable hrun (by omega)] at h
      exact .inr (.inl ⟨hrun, by omega, (Host.Outcome.next.inj h).symm⟩)
  · rw [step_of_halted hrun] at h
    exact .inl ⟨hrun, (Host.Outcome.next.inj h).symm⟩

/-- Settles O6: the two branches of a step that execute nothing. -/
theorem haltedOrUnfetchableStepExecutesNothing : Obligations.HaltedOrUnfetchableStepExecutesNothing :=
  ⟨fun _ => step_of_halted, fun _ => step_of_unfetchable⟩

/-- Settles O7: each of the three branches of a step answers a next state. -/
theorem everyStepAnswersANextState : Obligations.EveryStepAnswersANextState := by
  intro s
  by_cases hrun : s.fault = 0
  · by_cases hpc : s.pc.toNat ≤ 0xFFE
    · rw [step_of_running hrun hpc]
      exact exec_total _ s
    · exact ⟨_, step_of_unfetchable hrun (by omega)⟩
  · exact ⟨s, step_of_halted hrun⟩

end Sys2Proof.Machine
end

section
/-! The access matrix, the column of writes: the frame of every update, then of every instruction
(10_state.md section 10). -/
namespace Sys2Proof.Machine

/-! ## The frame of each update -/

@[simp] theorem Element.same_refl (e : Element) (s : State) : e.same s s := by cases e <;> rfl

theorem Element.same_trans {e : Element} {s t u : State} (h : e.same s t) (h' : e.same t u) : e.same s u := by
  cases e <;> exact Eq.trans h h'

theorem Element.same_setReg {e : Element} {s : State} {x : Reg} {b : Byte} (h : e ≠ .v x) :
    e.same s (s.setReg x b) := by
  cases e with
  | v r =>
    have hne : x.val ≠ r.val := fun hv => h (congrArg Element.v (Fin.ext hv.symm))
    exact (Vector.getElem_set_ne x.isLt r.isLt hne).symm
  | _ => rfl

theorem Element.same_setPc {e : Element} {s : State} {a : Word} (h : e ≠ .pc) : e.same s (s.setPc a) := by
  cases e with
  | pc => exact absurd rfl h
  | _ => rfl

theorem Element.same_advance {e : Element} {s : State} (h : e ≠ .pc) : e.same s s.advance := e.same_setPc h

theorem Element.same_skipIf {e : Element} {s : State} {c : Bool} (h : e ≠ .pc) : e.same s (s.skipIf c) :=
  e.same_setPc h

theorem Element.same_setI {e : Element} {s : State} {a : Word} (h : e ≠ .i) : e.same s (s.setI a) := by
  cases e with
  | i => exact absurd rfl h
  | _ => rfl

theorem Element.same_setDt {e : Element} {s : State} {b : Byte} (h : e ≠ .dt) : e.same s (s.setDt b) := by
  cases e with
  | dt => exact absurd rfl h
  | _ => rfl

theorem Element.same_setSt {e : Element} {s : State} {b : Byte} (h : e ≠ .st) : e.same s (s.setSt b) := by
  cases e with
  | st => exact absurd rfl h
  | _ => rfl

theorem Element.same_setFb {e : Element} {s : State} {d : Display} (h : e ≠ .fb) : e.same s (s.setFb d) := by
  cases e with
  | fb => exact absurd rfl h
  | _ => rfl

theorem Element.same_drawn {e : Element} {s : State} (h : e ≠ .rand) : e.same s s.drawn := by
  cases e with
  | rand => exact absurd rfl h
  | _ => rfl

theorem Element.same_raise {e : Element} {s : State} {c : BitVec 3} (h : e ≠ .fault) :
    e.same s { s with fault := c } := by
  cases e with
  | fault => exact absurd rfl h
  | _ => rfl

/-- A store changes the bytes of its range only. -/
theorem Element.same_writeAtI {e : Element} {s : State} {bs : List Byte}
    (h : ¬ ∃ k < bs.length, e = .mem (s.i.toNat + k)) : e.same s (s.writeAtI bs) := by
  cases e with
  | mem a =>
    refine (Memory.read_writeBytes_outside s.mem s.i.toNat a bs ?_).symm
    by_contra hin
    exact h ⟨a - s.i.toNat, by omega, congrArg Element.mem (by omega)⟩
  | _ => rfl

/-- What the registers hold after a load from memory (R135). -/
theorem State.loadFromI_getElem (s : State) (x k : Reg) :
    (s.loadFromI x).v[k] = if k ≤ x then s.mem.read (s.effectiveAddress k.val) else s.v[k] := by
  have h := loadRegisters_getElem s.v 0 (s.readAtI (registerCount x)) k.val k.isLt
  simp only [State.readAtI, Memory.readBytes_length, Memory.readBytes_getElem, Nat.zero_add, Nat.sub_zero, Nat.zero_le,
    true_and, registerCount, Nat.lt_succ_iff] at h
  exact h

theorem Element.same_loadFromI {e : Element} {s : State} {x : Reg} (h : ¬ ∃ r ≤ x, e = .v r) :
    e.same s (s.loadFromI x) := by
  cases e with
  | v r =>
    have hr : ¬ r ≤ x := fun hr => h ⟨r, hr, rfl⟩
    exact ((s.loadFromI_getElem x r).trans (if_neg hr)).symm
  | _ => rfl

/-- The frame of an instruction that writes one register and advances. -/
theorem Element.same_setReg_advance {e : Element} {s : State} {x : Reg} {b : Byte} (h : ¬ (e = .v x ∨ e = .pc)) :
    e.same s (s.setReg x b).advance := by
  obtain ⟨hx, hpc⟩ := not_or.mp h
  exact Element.same_trans (e.same_setReg hx) (e.same_advance hpc)

/-- The frame of an instruction that writes one register and the flag and advances. -/
theorem Element.same_setResultAndFlag {e : Element} {s : State} {x : Reg} {b : Byte} {f : Bool}
    (h : ¬ (e = .v x ∨ e = .v 15 ∨ e = .pc)) : e.same s (s.setResultAndFlag x b f) := by
  obtain ⟨hx, hflag⟩ := not_or.mp h
  exact Element.same_trans (e.same_setReg hx) (e.same_setReg_advance hflag)

/-! ## The frame of each instruction -/

/-- A completed instruction leaves every element that its row of the matrix does not list as written. -/
theorem CompletedState.same_of_not_written {i : Instr} {s t : State} (hc : CompletedState i s t) {e : Element}
    (h : ¬ instrCompletedWrites i s e) : e.same s t := by
  cases i
  case jp | jpV0 => obtain rfl := hc; exact e.same_setPc h
  case seImm | sneImm | seReg | sneReg => obtain rfl := hc; exact e.same_skipIf h
  case undef => obtain rfl := hc; exact e.same_advance h
  case skp | sknp => obtain ⟨_, rfl⟩ := hc; exact e.same_skipIf h
  case ldImm | addImm | ldReg | or | and | xor | ldVxDt => obtain rfl := hc; exact e.same_setReg_advance h
  case addReg | sub | shr | subn | shl => obtain rfl := hc; exact e.same_setResultAndFlag h
  case cls =>
    obtain rfl := hc
    obtain ⟨hfb, hpc⟩ := not_or.mp h
    exact Element.same_trans (e.same_setFb hfb) (e.same_advance hpc)
  case ret =>
    obtain ⟨k, _, rfl⟩ := hc
    obtain ⟨hsp, hpc⟩ := not_or.mp h
    cases e with
    | sp => exact absurd rfl hsp
    | pc => exact absurd rfl hpc
    | _ => rfl
  case call =>
    obtain ⟨k, hk, rfl⟩ := hc
    obtain ⟨hstack, hsp, hpc⟩ := not_or.mp h |>.imp_right not_or.mp
    cases e with
    | sp => exact absurd rfl hsp
    | pc => exact absurd rfl hpc
    | stack j =>
      have hne : k.val ≠ j.val := fun hv => hstack ⟨j, by rw [hk]; exact hv.symm, rfl⟩
      exact (Vector.getElem_set_ne k.isLt j.isLt hne).symm
    | _ => rfl
  case ldI | addIVx =>
    obtain rfl := hc
    obtain ⟨hi, hpc⟩ := not_or.mp h
    exact Element.same_trans (e.same_setI hi) (e.same_advance hpc)
  case ldFVx =>
    obtain ⟨hi, hpc⟩ := not_or.mp h
    rcases hc with ⟨hdigit, rfl⟩ | ⟨_, rfl⟩
    · exact Element.same_trans (e.same_setI fun he => hi ⟨hdigit, he⟩) (e.same_advance hpc)
    · exact e.same_advance hpc
  case rnd =>
    obtain rfl := hc
    obtain ⟨hx, hpc, hrand⟩ := not_or.mp h |>.imp_right not_or.mp
    exact Element.same_trans (Element.same_trans (e.same_setReg hx) (e.same_drawn hrand)) (e.same_advance hpc)
  case drw =>
    obtain ⟨_, rfl⟩ := hc
    obtain ⟨hfb, hflag⟩ := not_or.mp h
    exact Element.same_trans (e.same_setFb hfb) (e.same_setReg_advance hflag)
  case ldVxK =>
    rcases hc with ⟨_, rfl⟩ | ⟨k, hkey, _, rfl⟩
    · exact e.same_refl _
    · exact e.same_setReg_advance fun he => h ⟨hkey, he⟩
  case ldDtVx =>
    obtain rfl := hc
    obtain ⟨hdt, hpc⟩ := not_or.mp h
    exact Element.same_trans (e.same_setDt hdt) (e.same_advance hpc)
  case ldStVx =>
    obtain rfl := hc
    obtain ⟨hst, hpc⟩ := not_or.mp h
    exact Element.same_trans (e.same_setSt hst) (e.same_advance hpc)
  case ldBVx =>
    obtain ⟨_, rfl⟩ := hc
    obtain ⟨hmem, hpc⟩ := not_or.mp h
    refine Element.same_trans (e.same_writeAtI ?_) (e.same_advance hpc)
    exact hmem
  case ldMemVx x =>
    obtain ⟨_, rfl⟩ := hc
    obtain ⟨hmem, hpc⟩ := not_or.mp h
    refine Element.same_trans (e.same_writeAtI ?_) (e.same_advance hpc)
    rintro ⟨k, hk, he⟩
    rw [s.registersTo_length x] at hk
    exact hmem ⟨k, by omega, he⟩
  case ldVxMem =>
    obtain ⟨_, rfl⟩ := hc
    obtain ⟨hregs, hpc⟩ := not_or.mp h
    exact Element.same_trans (e.same_loadFromI hregs) (e.same_advance hpc)

/-- An instruction leaves every element that the matrix does not list as written: FAULT alone is, where it faults. -/
theorem exec_same_of_not_written {i : Instr} {s t : State} {e : Element} (h : exec i s = .next t)
    (hw : ¬ instrWrites i s e) : e.same s t := by
  rcases exec_cases h with ⟨c, hf, rfl⟩ | ⟨hf, hc⟩
  · simp only [instrWrites, hf] at hw
    exact e.same_raise hw
  · simp only [instrWrites, hf] at hw
    exact hc.same_of_not_written hw

end Sys2Proof.Machine
end

section
/-! FAULT and VF: what a step and an instruction leave in them (60_exceptions.md section 2, 10_state.md section 2). -/
namespace Sys2Proof.Machine

/-! ## FAULT -/

/-- An instruction that completes leaves FAULT as it was: no row of the matrix lists it. -/
theorem CompletedState.fault_eq {i : Instr} {s t : State} (hc : CompletedState i s t) : t.fault = s.fault := by
  have hw : ¬ instrCompletedWrites i s .fault := by cases i <;> simp [instrCompletedWrites]
  exact (hc.same_of_not_written hw).symm

/-- Settles O42: of the branches of a running machine's step, the fetch fault and the instruction's fault write FAULT
alone, and a completed instruction leaves it 0. -/
theorem faultingStepChangesOnlyFault : Obligations.FaultingStepChangesOnlyFault := by
  intro s t hrun hstep hfault
  rcases step_cases hstep with ⟨hhalted, _⟩ | ⟨_, _, rfl⟩ | ⟨_, _, hexec⟩
  · exact absurd hrun hhalted
  · rfl
  · rcases exec_cases hexec with ⟨_, _, rfl⟩ | ⟨_, hc⟩
    · rfl
    · exact absurd (hc.fault_eq.trans hrun) hfault

/-- Settles O43: the fetch fault, the fault of the fetched instruction, or none. -/
theorem faultCausesAreExactlyTheFive : Obligations.FaultCausesAreExactlyTheFive := by
  intro s t hrun hstep
  rcases step_cases hstep with ⟨hhalted, _⟩ | ⟨_, hpc, rfl⟩ | ⟨_, hpc, hexec⟩
  · exact absurd hrun hhalted
  · rw [if_pos hpc]
  · rw [if_neg (Nat.not_lt.mpr hpc)]
    rcases exec_cases hexec with ⟨c, hf, rfl⟩ | ⟨hf, hc⟩
    · rw [hf]
      cases c <;> rfl
    · rw [hf]
      exact hc.fault_eq.trans hrun

/-! ## VF -/

/-- The flag is written last, so it is what VF holds, also with `X = 0xF` (R115). -/
theorem setReg_vf_flag (s : State) (f : Bool) : (s.setReg vf (flagByte f)).v[15] = flagByte f :=
  Vector.getElem_set_self (by decide)

theorem State.setResultAndFlag_vf (s : State) (x : Reg) (b : Byte) (f : Bool) :
    (s.setResultAndFlag x b f).v[15] = flagByte f := setReg_vf_flag (s.setReg x b) f

/-- FAULT apart, an instruction writes nothing that its row for a completed step does not list. -/
theorem not_instrWrites {i : Instr} {s : State} {e : Element} (hf : e ≠ .fault) (h : ¬ instrCompletedWrites i s e) :
    ¬ instrWrites i s e := by
  unfold instrWrites
  split
  · exact hf
  · exact h

/-- Settles O41: a flag writer leaves a flag byte in VF, and no other row of the matrix lists VF but for an X nibble
of 0xF. -/
theorem flagWritersLeaveZeroOrOne : Obligations.FlagWritersLeaveZeroOrOne := by
  refine ⟨fun i s t h hn hflag => ?_, fun i s t h hx => ?_⟩
  · rcases exec_cases h with ⟨c, hf, _⟩ | ⟨_, hc⟩
    · exact absurd (hf.symm.trans hn) (Option.some_ne_none c)
    cases i
    case addReg | sub | subn | shr | shl =>
      obtain rfl := hc
      rw [s.setResultAndFlag_vf]
      exact flagByte_cases _
    case drw =>
      obtain ⟨_, rfl⟩ := hc
      rw [State.advance_v, setReg_vf_flag]
      exact flagByte_cases _
    all_goals exact hflag.elim
  · refine (exec_same_of_not_written (e := .v 15) h (not_instrWrites (by simp) ?_)).symm
    cases i
    case addReg | sub | subn | shr | shl | drw => exact hx.elim
    case ldImm | addImm | ldReg | or | and | xor | rnd | ldVxDt =>
      simpa [instrCompletedWrites] using Ne.symm hx
    case ldVxK =>
      rintro ⟨_, he | he⟩
      · exact hx (Element.v.inj he).symm
      · exact Element.noConfusion he
    case ldVxMem =>
      rintro (⟨r, hr, he⟩ | he)
      · obtain rfl := Element.v.inj he
        exact hx (Fin.last_le_iff.mp hr)
      · exact Element.noConfusion he
    all_goals simp [instrCompletedWrites]

end Sys2Proof.Machine
end

section
/-! The invariant: it holds at reset, and every step and every other transaction keeps it (10_state.md section 11). -/
namespace Sys2Proof.Machine

/-! ## The clauses of the invariant, for a completed instruction -/

/-- Every write to memory keeps its canonical form. -/
theorem CompletedState.mem_wf {i : Instr} {s t : State} (hc : CompletedState i s t) (hm : s.mem.wf) : t.mem.wf := by
  cases i
  case ldBVx | ldMemVx => obtain ⟨_, rfl⟩ := hc; exact Memory.writeBytes_wf hm _ _
  case drw | skp | sknp | ldVxMem => obtain ⟨_, rfl⟩ := hc; exact hm
  case ret | call => obtain ⟨_, _, rfl⟩ := hc; exact hm
  case ldVxK => rcases hc with ⟨_, rfl⟩ | ⟨_, _, _, rfl⟩ <;> exact hm
  case ldFVx => rcases hc with ⟨_, rfl⟩ | ⟨_, rfl⟩ <;> exact hm
  all_goals obtain rfl := hc; exact hm

/-- The live stack entries stay in bounds: CALL pushes the address after a fetchable one, RET drops an entry, and no
other instruction writes the stack. -/
theorem CompletedState.liveEntries {i : Instr} {s t : State} (hc : CompletedState i s t) (hpc : s.pc.toNat ≤ 0xFFE)
    (hs : ∀ k : Fin 16, k.val < s.sp.val → s.stack[k].toNat ≤ 0x1000) :
    ∀ k : Fin 16, k.val < t.sp.val → t.stack[k].toNat ≤ 0x1000 := by
  intro j hj
  cases i
  case ret =>
    obtain ⟨k, hk, rfl⟩ := hc
    exact hs j (by rw [hk]; exact Nat.lt_succ_of_lt hj)
  case call =>
    obtain ⟨k, hk, rfl⟩ := hc
    by_cases hjk : j = k
    · subst hjk
      have hpush : (s.stack.set j (s.pc + 2))[j] = s.pc + 2 := Vector.getElem_set_self j.isLt
      rw [hpush]
      bv_omega
    · have hne : k.val ≠ j.val := fun hv => hjk (Fin.ext hv.symm)
      have hkeep : (s.stack.set k (s.pc + 2))[j] = s.stack[j] := Vector.getElem_set_ne k.isLt j.isLt hne
      have hlt : j.val < k.val + 1 := hj
      rw [hkeep]
      exact hs j (by rw [hk]; exact Nat.lt_of_le_of_ne (Nat.lt_succ_iff.mp hlt) hne.symm)
  all_goals
    have hsp := hc.same_of_not_written (e := .sp) (by simp [instrCompletedWrites])
    have hstack := hc.same_of_not_written (e := .stack j) (by simp [instrCompletedWrites])
    exact hstack ▸ hs j (hsp ▸ hj)

/-- The step from a fetchable `pc` to one of the next two words stays below the bound. -/
theorem pc_add_le {a d : Word} (ha : a.toNat ≤ 0xFFE) (hd : d = 2 ∨ d = 4) : (a + d).toNat ≤ 0x10FE := by
  rcases hd with rfl | rfl <;> bv_omega

theorem addressWord_toNat (nnn : Addr12) : (addressWord nnn).toNat = nnn.toNat := by
  have := nnn.isLt
  simp only [addressWord, BitVec.toNat_setWidth]; omega

/-- BNNN's sum does not wrap (R93). -/
theorem addressWord_add_toNat (nnn : Addr12) (b : Byte) :
    (addressWord nnn + b.zeroExtend 16).toNat = nnn.toNat + b.toNat := by
  have := nnn.isLt
  have := b.isLt
  simp only [BitVec.toNat_add, addressWord_toNat, BitVec.toNat_setWidth]; omega

/-- By R78's list of the writes of `pc`: the farthest target from a fetchable `pc` is BNNN's, 0xFFF + 0xFF. -/
theorem exec_pc_le {i : Instr} {s t : State} (h : exec i s = .next t) (hn : instructionFault i s = none)
    (hs : s.Inv) (hpc : s.pc.toNat ≤ 0xFFE) : t.pc.toNat ≤ 0x10FE := by
  have hw := (programCounterWritesAreTheListedOnes i s t h).2 hn
  cases i
  case jp nnn | call nnn =>
    have hle : (addressWord nnn).toNat ≤ 0x10FE := by rw [addressWord_toNat]; omega
    exact hw ▸ hle
  case jpV0 nnn =>
    have hle : (addressWord nnn + s.v[0].zeroExtend 16).toNat ≤ 0x10FE := by rw [addressWord_add_toNat]; omega
    exact hw ▸ hle
  case ret =>
    obtain ⟨k, hk⟩ := s.sp_is_succ (by simpa [instructionFault] using hn)
    rw [hw k hk.symm]
    exact (hs.liveEntries k (by omega)).trans (by decide)
  case ldVxK =>
    rw [hw]
    split
    · omega
    · exact pc_add_le hpc (.inl rfl)
  case seImm | sneImm | seReg | sneReg | skp | sknp =>
    rw [hw]
    exact pc_add_le hpc (by split <;> simp)
  all_goals
    rw [hw]
    exact pc_add_le hpc (.inl rfl)

theorem FaultCause.code_le (c : FaultCause) : c.code.toNat ≤ 5 := by cases c <;> decide

theorem exec_inv {i : Instr} {s t : State} (h : exec i s = .next t) (hs : s.Inv) (hpc : s.pc.toNat ≤ 0xFFE) :
    t.Inv := by
  rcases exec_cases h with ⟨c, _, rfl⟩ | ⟨hn, hc⟩
  · exact ⟨hs.memoryCanonical, c.code_le, hs.liveEntries, hs.pcBound⟩
  · exact ⟨hc.mem_wf hs.memoryCanonical, hc.fault_eq ▸ hs.faultLegal, hc.liveEntries hpc hs.liveEntries,
      exec_pc_le h hn hs hpc⟩

/-! ## Steps, transactions and runs -/

/-- Settles O45: at reset memory lists nothing, FAULT and SP are 0 and `pc` is 0x200. -/
theorem resetMeetsTheInvariant : Obligations.ResetMeetsTheInvariant where
  memoryCanonical := ⟨.nil, fun _ hc => absurd hc List.not_mem_nil⟩
  faultLegal := by decide
  liveEntries := fun _ hk => absurd hk (Nat.not_lt_zero _)
  pcBound := by decide

/-- Settles O46: a halted machine stays as it is, a fetch fault latches a legal code, and an executed instruction keeps
each clause. -/
theorem stepKeepsTheInvariant : Obligations.StepKeepsTheInvariant := by
  intro s t hs hstep
  rcases step_cases hstep with ⟨_, rfl⟩ | ⟨_, _, rfl⟩ | ⟨_, hpc, hexec⟩
  · exact hs
  · exact ⟨hs.memoryCanonical, FaultCause.fetchOutOfRange.code_le, hs.liveEntries, hs.pcBound⟩
  · exact exec_inv hexec hs hpc

theorem transact_step {s t : State} (h : step s = .next t) : transact .step s = (t, .done) := by
  simp only [transact, h, settle]

theorem load_of_fits {bytes : List Byte} (h : bytes.length ≤ 3584) (s : State) :
    load bytes s = .next (s.setMem (s.mem.writeBytes 0x200 bytes)) := if_pos h

theorem load_of_too_long {bytes : List Byte} (h : 3584 < bytes.length) (s : State) :
    load bytes s = .refused (.imageTooLong bytes.length) := if_neg (Nat.not_le.mpr h)

theorem transact_load_of_fits {bytes : List Byte} (h : bytes.length ≤ 3584) (s : State) :
    transact (.load bytes) s = (s.setMem (s.mem.writeBytes 0x200 bytes), .done) := by
  simp only [transact, load_of_fits h, settle]

theorem transact_load_of_too_long {bytes : List Byte} (h : 3584 < bytes.length) (s : State) :
    transact (.load bytes) s = (s, .refused (.imageTooLong bytes.length)) := by
  simp only [transact, load_of_too_long h, settle]

theorem transact_inv (a : Transaction) {s : State} (hs : s.Inv) : (transact a s).1.Inv := by
  cases a with
  | reset =>
    have h := resetMeetsTheInvariant
    exact ⟨h.memoryCanonical, h.faultLegal, h.liveEntries, h.pcBound⟩
  | load bytes =>
    by_cases hlen : bytes.length ≤ 3584
    · rw [transact_load_of_fits hlen]
      exact ⟨Memory.writeBytes_wf hs.memoryCanonical _ _, hs.faultLegal, hs.liveEntries, hs.pcBound⟩
    · rw [transact_load_of_too_long (Nat.not_le.mp hlen)]
      exact hs
  | step =>
    obtain ⟨t, ht⟩ := everyStepAnswersANextState s
    rw [transact_step ht]
    exact stepKeepsTheInvariant s t hs ht
  | setKeys | tick => exact ⟨hs.memoryCanonical, hs.faultLegal, hs.liveEntries, hs.pcBound⟩
  | readDisplay | readTimers | readFault => exact hs

/-- Settles O47: each transaction of the run keeps the invariant. -/
theorem everyRunKeepsTheInvariant : Obligations.EveryRunKeepsTheInvariant := by
  intro ts
  induction ts with
  | nil => exact fun s hs => hs
  | cons a ts ih => exact fun s hs => ih _ (transact_inv a hs)

end Sys2Proof.Machine
end

section
/-! Memory: a byte after a write, the loaded image, and the three instructions that move bytes through `I`
(20_memory.md section 7, 44_index_memory.md). -/
namespace Sys2Proof

theorem decode_eq_ldBVx_iff : ∀ (w : Word) (x : Reg),
    decode w = .ldBVx x ↔ w &&& 0xF0FF = 0xF033 ∧ x = fieldX w :=
  decode_eq_iff_of_one_operand (by simp [opcodeMap, rowsXF]) (fun _ _ => Instr.ldBVx.inj) (fun _ => rfl)

theorem decode_eq_ldMemVx_iff : ∀ (w : Word) (x : Reg),
    decode w = .ldMemVx x ↔ w &&& 0xF0FF = 0xF055 ∧ x = fieldX w :=
  decode_eq_iff_of_one_operand (by simp [opcodeMap, rowsXF]) (fun _ _ => Instr.ldMemVx.inj) (fun _ => rfl)

theorem decode_eq_ldVxMem_iff : ∀ (w : Word) (x : Reg),
    decode w = .ldVxMem x ↔ w &&& 0xF0FF = 0xF065 ∧ x = fieldX w :=
  decode_eq_iff_of_one_operand (by simp [opcodeMap, rowsXF]) (fun _ _ => Instr.ldVxMem.inj) (fun _ => rfl)

namespace Machine

/-- Settles O48: the read at the written address, at every other, and the canonical form. -/
theorem readGivesTheLastWrite : Obligations.ReadGivesTheLastWrite := by
  refine ⟨fun m a k b ha => ?_, fun m a b hm => Memory.write_wf hm a b⟩
  split
  case isTrue hk => rw [hk, m.read_write_self b ha]
  case isFalse hk => exact m.read_write_other b hk

/-- Settles O50: an image that fits is written from 0x200 on, a longer one is refused. -/
theorem loadInstallsTheImage : Obligations.LoadInstallsTheImage := by
  refine ⟨fun bytes s hlen => ?_, fun bytes s hlen => transact_load_of_too_long hlen s⟩
  exact ⟨_, load_of_fits hlen s, rfl, transact_load_of_fits hlen s,
    fun k hk => s.mem.read_writeBytes_inside 0x200 k bytes hk (by omega),
    fun a ha => s.mem.read_writeBytes_outside 0x200 a bytes ha⟩

/-! ## The bytes at `I` after a store -/

/-- The `k`-th byte stored is read at `I + k`. -/
theorem State.read_writeAtI (s : State) {bs : List Byte} {k : Nat} (hk : k < bs.length)
    (h : s.i.toNat + bs.length ≤ 0x1000) : (s.writeAtI bs).mem.read (s.effectiveAddress k) = bs[k] :=
  s.mem.read_writeBytes_inside s.i.toNat k bs hk h

/-- Bytes outside the stored range read as before. -/
theorem State.read_writeAtI_outside (s : State) {bs : List Byte} {a : Nat}
    (ha : a < s.effectiveAddress 0 ∨ s.effectiveAddress 0 + bs.length ≤ a) :
    (s.writeAtI bs).mem.read a = s.mem.read a := s.mem.read_writeBytes_outside s.i.toNat a bs ha

/-- FX55 leaves `V[k]` at `I + k` (R134). -/
theorem State.read_writeAtI_registersTo (s : State) {x k : Reg} (hk : k ≤ x) (h : s.i.toNat + x.val ≤ 0xFFF) :
    (s.writeAtI (s.registersTo x)).mem.read (s.effectiveAddress k.val) = s.v[k] := by
  have hlen := s.registersTo_length x
  have hk' : k.val < (s.registersTo x).length := by rw [hlen]; exact Nat.lt_succ_of_le hk
  rw [s.read_writeAtI hk' (by omega)]
  exact s.registersTo_getElem x k.val hk'

/-- FX33 leaves the hundreds, the tens and the ones at `I`, `I + 1` and `I + 2` (R133). -/
theorem State.read_writeAtI_decimalDigits (s : State) (b : Byte) (h : s.i.toNat + 2 ≤ 0xFFF) :
    ((s.writeAtI (decimalDigits b)).mem.read (s.effectiveAddress 0)).toNat = b.toNat / 100 ∧
    ((s.writeAtI (decimalDigits b)).mem.read (s.effectiveAddress 1)).toNat = b.toNat / 10 % 10 ∧
    ((s.writeAtI (decimalDigits b)).mem.read (s.effectiveAddress 2)).toNat = b.toNat % 10 := by
  have hlen : (decimalDigits b).length = 3 := rfl
  have hb := b.isLt
  rw [s.read_writeAtI (k := 0) (by omega) (by omega), s.read_writeAtI (k := 1) (by omega) (by omega),
    s.read_writeAtI (k := 2) (by omega) (by omega)]
  simp only [decimalDigits, List.getElem_cons_zero, List.getElem_cons_succ, BitVec.toNat_ofNat]
  omega

theorem State.writeAtI_advance (s : State) (bs : List Byte) :
    (s.writeAtI bs).advance = { s with mem := (s.writeAtI bs).mem, pc := s.pc + 2 } := rfl

/-! ## FX33, FX55 and FX65 -/

theorem exec_ldBVx_completes {x : Reg} {s : State} (h : s.i.toNat + 2 ≤ 0xFFF) :
    exec (.ldBVx x) s = .next (s.writeAtI (decimalDigits s.v[x])).advance :=
  withDataRange_completes _ (.inr h)

theorem exec_ldMemVx_completes {x : Reg} {s : State} (h : s.i.toNat + x.val ≤ 0xFFF) :
    exec (.ldMemVx x) s = .next (s.writeAtI (s.registersTo x)).advance :=
  withDataRange_completes _ (.inr h)

theorem exec_ldVxMem_completes {x : Reg} {s : State} (h : s.i.toNat + x.val ≤ 0xFFF) :
    exec (.ldVxMem x) s = .next (s.loadFromI x).advance :=
  withDataRange_completes _ (.inr h)

/-- Settles O28: the three stored bytes are the digits of `V[X]`. -/
theorem ldBStoresDecimalDigits : Obligations.LdBStoresDecimalDigits := by
  refine ⟨decode_eq_ldBVx_iff, fun x s h => ?_, fun _ _ h => exec_of_fault (c := .dataAddressOutOfRange) (if_pos h)⟩
  obtain ⟨h0, h1, h2⟩ := s.read_writeAtI_decimalDigits s.v[x] h
  exact ⟨_, exec_ldBVx_completes h, s.writeAtI_advance _, h0, h1, h2, fun a ha => s.read_writeAtI_outside ha⟩

/-- Settles O29: the stored bytes are the registers up to `V[X]`. -/
theorem ldMemStoresRegisters : Obligations.LdMemStoresRegisters := by
  refine ⟨decode_eq_ldMemVx_iff, fun x s h => ?_, fun _ _ h => exec_of_fault (c := .dataAddressOutOfRange) (if_pos h)⟩
  refine ⟨_, exec_ldMemVx_completes h, s.writeAtI_advance _, fun k hk => s.read_writeAtI_registersTo hk h,
    fun a ha => s.read_writeAtI_outside ?_⟩
  rw [s.registersTo_length x]
  exact ha

/-- Settles O30: the registers up to `V[X]` take the bytes from `I` on. -/
theorem ldVxMemLoadsRegisters : Obligations.LdVxMemLoadsRegisters :=
  ⟨decode_eq_ldVxMem_iff,
    fun x s h => ⟨_, exec_ldVxMem_completes h, rfl, fun k => s.loadFromI_getElem x k⟩,
    fun _ _ h => exec_of_fault (c := .dataAddressOutOfRange) (if_pos h)⟩

/-! ## Instruction-fetch coherence -/

/-- After a store at the address of the next instruction, the next step executes what `I` and `I + 1` now hold. -/
theorem step_after_store_at_next {s t : State} (hrun : s.fault = 0) (hi : s.i.toNat = s.pc.toNat + 2)
    (hrange : s.i.toNat + 1 ≤ 0xFFF) (ht : t = { s with mem := t.mem, pc := s.pc + 2 }) :
    t.pc = s.i ∧
      step t = exec (decode (t.mem.read (s.effectiveAddress 0) ++ t.mem.read (s.effectiveAddress 1))) t := by
  have hpc : t.pc = s.i := by
    rw [ht]
    apply BitVec.eq_of_toNat_eq
    rw [BitVec.toNat_add, hi]
    exact Nat.mod_eq_of_lt (by show s.pc.toNat + 2 < 65536; omega)
  have hfetch : t.fetchWord = t.mem.read (s.effectiveAddress 0) ++ t.mem.read (s.effectiveAddress 1) := by
    rw [State.fetchWord, hpc]; rfl
  refine ⟨hpc, ?_⟩
  rw [← hfetch]
  exact step_of_running (by rw [ht]; exact hrun) (by rw [hpc]; omega)

/-- Settles O31: the word at any `pc` is read from the memory the store left. -/
theorem storesAreSeenByTheNextFetch : Obligations.StoresAreSeenByTheNextFetch := by
  obtain ⟨-, hmem, -⟩ := ldMemStoresRegisters
  obtain ⟨-, hdigits, -⟩ := ldBStoresDecimalDigits
  refine ⟨fun x s t h hexec => ?_, fun x s t h hexec => ?_, fun x s hrun hdec hx hi h => ?_,
    fun x s hrun hdec hi h => ?_⟩
  · obtain ⟨u, hu, -, hin, hout⟩ := hmem x s h
    obtain rfl := Host.Outcome.next.inj (hexec.symm.trans hu)
    exact ⟨t.mem.read, hin, hout, fun _ => rfl⟩
  · obtain ⟨u, hu, -, h0, h1, h2, hout⟩ := hdigits x s h
    obtain rfl := Host.Outcome.next.inj (hexec.symm.trans hu)
    exact ⟨t.mem.read, h0, h1, h2, hout, fun _ => rfl⟩
  · obtain ⟨t, ht, heq, hin, -⟩ := hmem x s h
    obtain ⟨hpc, hstep⟩ := step_after_store_at_next hrun hi (by omega) heq
    refine ⟨t, ?_, hpc, ?_⟩
    · rw [step_of_running hrun (by omega), hdec, ht]
    · have hv0 : t.mem.read (s.effectiveAddress 0) = s.v[0] := hin 0 (Fin.zero_le x)
      have hv1 : t.mem.read (s.effectiveAddress 1) = s.v[1] := hin 1 hx
      rw [hstep, hv0, hv1]
  · obtain ⟨t, ht, heq, h0, h1, -⟩ := hdigits x s h
    obtain ⟨hpc, hstep⟩ := step_after_store_at_next hrun hi (by omega) heq
    refine ⟨t, _, _, h0, h1, ?_, hpc, hstep⟩
    rw [step_of_running hrun (by omega), hdec, ht]

end Machine
end Sys2Proof
end

section
/-! The access matrix, the column of reads: what an instruction leaves in the elements it writes depends on `pc` and the
elements it reads alone (10_state.md section 10). -/
namespace Sys2Proof.Machine

/-! ## Updates that agree in what they write -/

theorem Element.same_setPc_congr {e : Element} {s s' : State} {a a' : Word} (he : e = .pc) (ha : a = a') :
    e.same (s.setPc a) (s'.setPc a') := by
  subst he
  exact ha

theorem Element.same_advance_congr {e : Element} {s s' : State} (he : e = .pc) (hpc : s.pc = s'.pc) :
    e.same s.advance s'.advance := Element.same_setPc_congr he (congrArg (· + 2) hpc)

theorem Element.same_skipIf_congr {e : Element} {s s' : State} {c c' : Bool} (he : e = .pc) (hpc : s.pc = s'.pc)
    (hc : c = c') : e.same (s.skipIf c) (s'.skipIf c') := by
  subst hc
  exact Element.same_setPc_congr he (congrArg (· + _) hpc)

theorem Element.same_setReg_advance_congr {e : Element} {s s' : State} {x : Reg} {b b' : Byte}
    (he : e = .v x ∨ e = .pc) (hpc : s.pc = s'.pc) (hb : b = b') :
    e.same (s.setReg x b).advance (s'.setReg x b').advance := by
  rcases he with rfl | he
  · have hs : (s.v.set x b)[x] = b := Vector.getElem_set_self x.isLt
    have hs' : (s'.v.set x b')[x] = b' := Vector.getElem_set_self x.isLt
    exact (hs.trans hb).trans hs'.symm
  · exact Element.same_advance_congr he hpc

theorem Element.same_setI_advance_congr {e : Element} {s s' : State} {a a' : Word} (he : e = .i ∨ e = .pc)
    (hpc : s.pc = s'.pc) (ha : a = a') : e.same (s.setI a).advance (s'.setI a').advance := by
  rcases he with rfl | he
  · exact ha
  · exact Element.same_advance_congr he hpc

theorem Element.same_setResultAndFlag_congr {e : Element} {s s' : State} {x : Reg} {b b' : Byte} {f f' : Bool}
    (he : e = .v x ∨ e = .v 15 ∨ e = .pc) (hpc : s.pc = s'.pc) (hb : b = b') (hf : f = f') :
    e.same (s.setResultAndFlag x b f) (s'.setResultAndFlag x b' f') := by
  subst hb hf
  rcases he with rfl | he
  · by_cases hx : x = vf
    · subst hx
      exact Element.same_setReg_advance_congr (.inl rfl) hpc rfl
    · have hne : Element.v x ≠ .v vf := fun h => hx (Element.v.inj h)
      have hcommon : (Element.v x).same (s.setReg x b) (s'.setReg x b) :=
        Element.same_setReg_advance_congr (.inl rfl) hpc rfl
      exact ((Element.same_setReg hne).symm.trans hcommon).trans (Element.same_setReg hne)
  · exact Element.same_setReg_advance_congr he hpc rfl

/-- A list of bytes stored at the same `I` leaves the same bytes in its range. -/
theorem Element.same_writeAtI_advance_congr {e : Element} {s s' : State} {bs bs' : List Byte}
    (he : (∃ k < bs.length, e = .mem (s.i.toNat + k)) ∨ e = .pc) (hpc : s.pc = s'.pc) (hi : s.i = s'.i) (hbs : bs = bs')
    (h : s.i.toNat + bs.length ≤ 0x1000) : e.same (s.writeAtI bs).advance (s'.writeAtI bs').advance := by
  subst hbs
  rcases he with ⟨k, hk, rfl⟩ | he
  · have hs : (s.writeAtI bs).mem.read (s.i.toNat + k) = bs[k] := s.read_writeAtI hk h
    have hs' : (s'.writeAtI bs).mem.read (s.i.toNat + k) = bs[k] := hi ▸ s'.read_writeAtI hk (hi ▸ h)
    exact hs.trans hs'.symm
  · exact Element.same_advance_congr he hpc

theorem Memory.readBytes_congr {m m' : Memory} {a n : Nat} (h : ∀ k < n, m.read (a + k) = m'.read (a + k)) :
    m.readBytes a n = m'.readBytes a n := by
  refine List.ext_getElem (by simp) fun k hk hk' => ?_
  rw [Memory.readBytes_getElem, Memory.readBytes_getElem]
  exact h k (by simpa using hk)

theorem State.registersTo_congr {s s' : State} {x : Reg} (h : ∀ r ≤ x, s.v[r] = s'.v[r]) :
    s.registersTo x = s'.registersTo x := by
  have hlen := s.registersTo_length x
  have hlen' := s'.registersTo_length x
  refine List.ext_getElem (by omega) fun k hk hk' => ?_
  rw [s.registersTo_getElem, s'.registersTo_getElem]
  exact h ⟨k, by omega⟩ (Nat.lt_succ_iff.mp (by rw [hlen] at hk; exact hk))

theorem State.drawSprite_congr {s s' : State} {x y : Reg} {n : RowCount} (hx : s.v[x] = s'.v[x]) (hy : s.v[y] = s'.v[y])
    (hbytes : s.readAtI n.val = s'.readAtI n.val) (hfb : s.fb = s'.fb) : s.drawSprite x y n = s'.drawSprite x y n := by
  simp only [State.drawSprite, State.reg_eq, hx, hy, hbytes, hfb]

/-! ## The fault of an instruction and what its check reads -/

/-- Whether an instruction faults, and with which code, depends on what its check reads alone. -/
theorem instructionFault_congr {i : Instr} {s s' : State} (h : ∀ e, instrCheckReads i e → e.same s s') :
    instructionFault i s = instructionFault i s' := by
  cases i
  case ret | call =>
    have hsp : s.sp = s'.sp := h .sp rfl
    simp only [instructionFault, hsp]
  case drw | ldBVx | ldMemVx | ldVxMem =>
    have hi : s.i = s'.i := h .i rfl
    simp only [instructionFault, hi]
  case skp x | sknp x =>
    have hx : s.v[x] = s'.v[x] := h (.v x) rfl
    simp only [instructionFault, hx]
  all_goals rfl

/-- What the check reads is read by the completed instruction too. -/
theorem instrCheckReads_subset {i : Instr} {s : State} {e : Element} (h : instrCheckReads i e) :
    instrCompletedReads i s e := by
  cases i
  case ret | skp | sknp | ldMemVx | ldVxMem => exact .inl h
  case call => exact h
  case drw => exact .inr (.inr (.inl h))
  case ldBVx => exact .inr h
  all_goals exact h.elim

theorem instrCheckReads_read {i : Instr} {s : State} {e : Element} (h : instrCheckReads i e) : instrReads i s e := by
  unfold instrReads
  split
  · exact h
  · exact instrCheckReads_subset h

/-! ## The dependence of each instruction -/

/-- A completed instruction from two states with the same `pc` and the same listed reads leaves the same in every
element that its row lists as written. -/
theorem CompletedState.same_of_same_reads {i : Instr} {s s' t t' : State} (hc : CompletedState i s t)
    (hc' : CompletedState i s' t') (hpc : s.pc = s'.pc) (hr : ∀ e, instrCompletedReads i s e → e.same s s')
    {e : Element} (hw : instrCompletedWrites i s e) : e.same t t' := by
  cases i
  case jp => subst hc hc'; exact Element.same_setPc_congr hw rfl
  case undef => subst hc hc'; exact Element.same_advance_congr hw hpc
  case ldImm => subst hc hc'; exact Element.same_setReg_advance_congr hw hpc rfl
  case ldI => subst hc hc'; exact Element.same_setI_advance_congr hw hpc rfl
  case cls =>
    subst hc hc'
    rcases hw with rfl | he
    · rfl
    · exact Element.same_advance_congr he hpc
  case jpV0 =>
    have h0 : s.v[0] = s'.v[0] := hr (.v 0) rfl
    subst hc hc'
    exact Element.same_setPc_congr hw (by rw [h0])
  case seImm x nn | sneImm x nn =>
    have hx : s.v[x] = s'.v[x] := hr (.v x) rfl
    subst hc hc'
    exact Element.same_skipIf_congr hw hpc (by rw [hx])
  case seReg x y | sneReg x y =>
    have hx : s.v[x] = s'.v[x] := hr (.v x) (.inl rfl)
    have hy : s.v[y] = s'.v[y] := hr (.v y) (.inr rfl)
    subst hc hc'
    exact Element.same_skipIf_congr hw hpc (by rw [hx, hy])
  case skp x | sknp x =>
    have hx : s.v[x] = s'.v[x] := hr (.v x) (.inl rfl)
    obtain ⟨hlt, rfl⟩ := hc
    obtain ⟨_, rfl⟩ := hc'
    have hkey : s.key.getLsbD (s.v[x]).toNat = s'.key.getLsbD (s.v[x]).toNat :=
      hr (.key ⟨_, hlt⟩) (.inr ⟨_, rfl, rfl⟩)
    exact Element.same_skipIf_congr hw hpc (by rw [hkey, hx])
  case addImm x nn =>
    have hx : s.v[x] = s'.v[x] := hr (.v x) rfl
    subst hc hc'
    exact Element.same_setReg_advance_congr hw hpc (by rw [hx])
  case ldReg x y =>
    have hy : s.v[y] = s'.v[y] := hr (.v y) rfl
    subst hc hc'
    exact Element.same_setReg_advance_congr hw hpc hy
  case or x y | and x y | xor x y =>
    have hx : s.v[x] = s'.v[x] := hr (.v x) (.inl rfl)
    have hy : s.v[y] = s'.v[y] := hr (.v y) (.inr rfl)
    subst hc hc'
    exact Element.same_setReg_advance_congr hw hpc (by rw [hx, hy])
  case addReg x y | sub x y | subn x y =>
    have hx : s.v[x] = s'.v[x] := hr (.v x) (.inl rfl)
    have hy : s.v[y] = s'.v[y] := hr (.v y) (.inr rfl)
    subst hc hc'
    exact Element.same_setResultAndFlag_congr hw hpc (by rw [hx, hy]) (by rw [hx, hy])
  case shr x y | shl x y =>
    have hx : s.v[x] = s'.v[x] := hr (.v x) rfl
    subst hc hc'
    exact Element.same_setResultAndFlag_congr hw hpc (by rw [hx]) (by rw [hx])
  case rnd x nn =>
    have hdraws : s.draws = s'.draws := hr .rand rfl
    subst hc hc'
    rcases hw with rfl | rfl | rfl
    · exact Element.same_setReg_advance_congr (s := s.drawn) (s' := s'.drawn) (.inl rfl) hpc (by rw [hdraws])
    · exact Element.same_advance_congr rfl hpc
    · exact congrArg (· + 1) hdraws
  case ldVxDt =>
    have hdt : s.dt = s'.dt := hr .dt rfl
    subst hc hc'
    exact Element.same_setReg_advance_congr hw hpc hdt
  case ldDtVx x | ldStVx x =>
    have hx : s.v[x] = s'.v[x] := hr (.v x) rfl
    subst hc hc'
    rcases hw with rfl | he
    · exact hx
    · exact Element.same_advance_congr he hpc
  case addIVx x =>
    have hi : s.i = s'.i := hr .i (.inl rfl)
    have hx : s.v[x] = s'.v[x] := hr (.v x) (.inr rfl)
    subst hc hc'
    exact Element.same_setI_advance_congr hw hpc (by rw [hi, hx])
  case ldFVx x =>
    have hx : s.v[x] = s'.v[x] := hr (.v x) rfl
    have hx' := congrArg BitVec.toNat hx
    rcases hc with ⟨hlt, rfl⟩ | ⟨hge, rfl⟩ <;> rcases hc' with ⟨hlt', rfl⟩ | ⟨hge', rfl⟩
    · exact Element.same_setI_advance_congr (hw.imp_left And.right) hpc (by rw [hx])
    · omega
    · omega
    · exact Element.same_advance_congr (hw.resolve_left fun h => by omega) hpc
  case ldVxK x =>
    have hkey : s.key = s'.key := BitVec.eq_of_getLsbD_eq fun k hk => hr (.key ⟨k, hk⟩) ⟨_, rfl⟩
    have hlow : s.lowestKey = s'.lowestKey := by simp only [State.lowestKey, State.keyDown, hkey]
    obtain ⟨hdown, hw⟩ := hw
    rcases hc with ⟨h0, _⟩ | ⟨k, _, hk, rfl⟩
    · exact absurd h0 hdown
    rcases hc' with ⟨h0, _⟩ | ⟨k', _, hk', rfl⟩
    · exact absurd (hkey.trans h0) hdown
    have hkk : k.val = k'.val := Option.some.inj (hk.symm.trans (hlow.trans hk'))
    exact Element.same_setReg_advance_congr hw hpc (by rw [hkk])
  case ret =>
    have hsp : s.sp = s'.sp := hr .sp (.inl rfl)
    obtain ⟨k, hk, rfl⟩ := hc
    obtain ⟨k', hk', rfl⟩ := hc'
    obtain rfl : k = k' := Fin.ext (by have := congrArg Fin.val hsp; omega)
    rcases hw with rfl | rfl
    · rfl
    · exact hr (.stack k) (.inr ⟨k, hk.symm, rfl⟩)
  case call =>
    have hsp : s.sp = s'.sp := hr .sp rfl
    obtain ⟨k, hk, rfl⟩ := hc
    obtain ⟨k', hk', rfl⟩ := hc'
    obtain rfl : k = k' := Fin.castSucc_injective 16 (hk.symm.trans (hsp.trans hk'))
    rcases hw with ⟨j, hj, rfl⟩ | rfl | rfl
    · obtain rfl : j = k := Fin.ext (hj.trans (congrArg Fin.val hk))
      have hs : (s.stack.set j (s.pc + 2))[j] = s.pc + 2 := Vector.getElem_set_self j.isLt
      have hs' : (s'.stack.set j (s'.pc + 2))[j] = s'.pc + 2 := Vector.getElem_set_self j.isLt
      exact (hs.trans (congrArg (· + 2) hpc)).trans hs'.symm
    · rfl
    · rfl
  case drw x y n =>
    have hx : s.v[x] = s'.v[x] := hr (.v x) (.inl rfl)
    have hy : s.v[y] = s'.v[y] := hr (.v y) (.inr (.inl rfl))
    have hi : s.i = s'.i := hr .i (.inr (.inr (.inl rfl)))
    have hfb : s.fb = s'.fb := hr .fb (.inr (.inr (.inr (.inl rfl))))
    have hbytes : s.readAtI n.val = s'.readAtI n.val := by
      simp only [State.readAtI, State.effectiveAddress, ← hi]
      exact Memory.readBytes_congr fun k hk => hr (.mem _) (.inr (.inr (.inr (.inr ⟨k, hk, rfl⟩))))
    have hdraw := State.drawSprite_congr hx hy hbytes hfb
    obtain ⟨_, rfl⟩ := hc
    obtain ⟨_, rfl⟩ := hc'
    rcases hw with rfl | he
    · exact congrArg Canvas.fb hdraw
    · exact Element.same_setReg_advance_congr (x := vf) he hpc (by rw [hdraw])
  case ldBVx x =>
    have hx : s.v[x] = s'.v[x] := hr (.v x) (.inl rfl)
    have hi : s.i = s'.i := hr .i (.inr rfl)
    obtain ⟨hrange, rfl⟩ := hc
    obtain ⟨_, rfl⟩ := hc'
    exact Element.same_writeAtI_advance_congr hw hpc hi (by rw [hx]) (Nat.add_le_add_right hrange 1)
  case ldMemVx x =>
    have hi : s.i = s'.i := hr .i (.inl rfl)
    have hregs := State.registersTo_congr fun r hrx => hr (.v r) (.inr ⟨r, hrx, rfl⟩)
    have hlen := s.registersTo_length x
    obtain ⟨hrange, rfl⟩ := hc
    obtain ⟨_, rfl⟩ := hc'
    refine Element.same_writeAtI_advance_congr (hw.imp_left ?_) hpc hi hregs (by omega)
    rintro ⟨k, hk, rfl⟩
    exact ⟨k, by omega, rfl⟩
  case ldVxMem x =>
    have hi : s.i = s'.i := hr .i (.inl rfl)
    obtain ⟨_, rfl⟩ := hc
    obtain ⟨_, rfl⟩ := hc'
    rcases hw with ⟨r, hrx, rfl⟩ | he
    · have hread : s.mem.read (s.i.toNat + r.val) = s'.mem.read (s.i.toNat + r.val) :=
        hr (.mem _) (.inr ⟨r.val, hrx, rfl⟩)
      show (s.loadFromI x).v[r] = (s'.loadFromI x).v[r]
      rw [s.loadFromI_getElem, s'.loadFromI_getElem, if_pos hrx, if_pos hrx]
      simp only [State.effectiveAddress, ← hi, hread]
    · exact Element.same_advance_congr he hpc

/-- Settles O39: the frame of every instruction, and the dependence of every faulting and of every completed one. -/
theorem accessMatrixIsComplete : Obligations.AccessMatrixIsComplete := by
  refine ⟨fun i s t e h hw => exec_same_of_not_written h hw, fun i s s' t t' h h' hpc hr e hw => ?_⟩
  have hfault : instructionFault i s = instructionFault i s' :=
    instructionFault_congr fun e he => hr e (instrCheckReads_read he)
  unfold instrReads at hr
  unfold instrWrites at hw
  rcases exec_cases h with ⟨c, hf, rfl⟩ | ⟨hf, hc⟩
  · rw [exec_of_fault (hfault.symm.trans hf)] at h'
    obtain rfl := Host.Outcome.next.inj h'
    rw [hf] at hw
    obtain rfl : e = .fault := hw
    rfl
  · rcases exec_cases h' with ⟨c, hf', _⟩ | ⟨_, hc'⟩
    · exact absurd (hf'.symm.trans (hfault.symm.trans hf)) (Option.some_ne_none c)
    · rw [hf] at hr hw
      exact hc.same_of_same_reads hc' hpc hr hw

end Sys2Proof.Machine
end

section
/-! The jumps, the call and the return: which words they are, and the whole next state (40_control_flow.md). -/
namespace Sys2Proof

theorem decode_eq_ret_iff : ∀ w : Word, decode w = .ret ↔ w = 0x00EE :=
  decode_eq_iff_of_no_operand (by simp [opcodeMap, rowsZA])

theorem decode_eq_jp_iff : ∀ (w : Word) (nnn : Addr12),
    decode w = .jp nnn ↔ w &&& 0xF000 = 0x1000 ∧ nnn = fieldNNN w :=
  decode_eq_iff_of_one_operand (by simp [opcodeMap, rowsZA]) (fun _ _ => Instr.jp.inj) (fun _ => rfl)

theorem decode_eq_call_iff : ∀ (w : Word) (nnn : Addr12),
    decode w = .call nnn ↔ w &&& 0xF000 = 0x2000 ∧ nnn = fieldNNN w :=
  decode_eq_iff_of_one_operand (by simp [opcodeMap, rowsZA]) (fun _ _ => Instr.call.inj) (fun _ => rfl)

theorem decode_eq_jpV0_iff : ∀ (w : Word) (nnn : Addr12),
    decode w = .jpV0 nnn ↔ w &&& 0xF000 = 0xB000 ∧ nnn = fieldNNN w :=
  decode_eq_iff_of_one_operand (by simp [opcodeMap, rowsZA]) (fun _ _ => Instr.jpV0.inj) (fun _ => rfl)

namespace Machine

/-- Settles O8: the popped entry goes to `pc`; with SP = 0 the fault is StackUnderflow. -/
theorem retPopsTheReturnAddress : Obligations.RetPopsTheReturnAddress :=
  ⟨decode_eq_ret_iff, fun _ _ hk => exec_ret_completes hk,
    fun _ h => exec_of_fault (c := .stackUnderflow) (if_pos (congrArg Fin.val h))⟩

/-- Settles O10: the return address is pushed; with SP = 16 the fault is StackOverflow. -/
theorem callPushesTheNextAddress : Obligations.CallPushesTheNextAddress :=
  ⟨decode_eq_call_iff, fun nnn _ _ hk => exec_call_completes nnn hk,
    fun _ _ h => exec_of_fault (c := .stackOverflow) (if_pos (congrArg Fin.val h))⟩

/-- Settles O11: the sum of NNN and `V[0]` does not wrap. -/
theorem jpV0AddsV0 : Obligations.JpV0AddsV0 :=
  ⟨decode_eq_jpV0_iff, fun nnn s => ⟨addressWord nnn + s.v[0].zeroExtend 16, addressWord_add_toNat nnn s.v[0], rfl⟩⟩

/-! ## Jumps to the own address -/

/-- A jump to its own address leaves the machine as it is (R91). -/
theorem step_of_atSelfJump {s : State} (h : s.atSelfJump) : step s = .next s := by
  obtain ⟨hrun, hpc, nnn, hdec, hnnn⟩ := h
  rw [step_of_running hrun hpc, hdec]
  show Host.Outcome.next (s.setPc (nnn.zeroExtend 16)) = .next s
  rw [hnnn]
  rfl

/-- The word `1NNN` with NNN the address it stands at is a jump to itself. -/
theorem State.atSelfJump_of_fetchWord {s : State} (hrun : s.fault = 0) (hpc : s.pc.toNat ≤ 0xFFE)
    (hw : s.fetchWord = 0x1000 + s.pc) : s.atSelfJump := by
  have hval : s.fetchWord.toNat = 0x1000 + s.pc.toNat := by
    rw [hw, BitVec.toNat_add]
    exact Nat.mod_eq_of_lt (by show 0x1000 + s.pc.toNat < 65536; omega)
  refine ⟨hrun, hpc, fieldNNN s.fetchWord, (decode_eq_jp_iff _ _).mpr ⟨?_, rfl⟩, ?_⟩
  · rw [mask_F000 _ rfl, hval]
    show _ = 1
    omega
  · apply BitVec.eq_of_toNat_eq
    rw [BitVec.toNat_setWidth, fieldNNN_toNat, hval]
    omega

/-- Settles O9: the target is NNN, a jump to its own address is a fixed point, and 0xFFF cannot be fetched from. -/
theorem jpSetsPc : Obligations.JpSetsPc := by
  refine ⟨decode_eq_jp_iff, fun _ _ => rfl,
    fun s hrun hpc hw => step_of_atSelfJump (State.atSelfJump_of_fetchWord hrun hpc hw), fun s t hrun h => ?_⟩
  obtain rfl := Host.Outcome.next.inj h
  exact step_of_unfetchable hrun (by show 0xFFE < (addressWord 0xFFF).toNat; decide)

end Machine
end Sys2Proof
end

section
/-! The skips on a key and the random byte: which words they are, and the whole next state (41_skips.md R105, R106,
42_immediate.md R112). -/
namespace Sys2Proof

theorem decode_eq_skp_iff : ∀ (w : Word) (x : Reg), decode w = .skp x ↔ w &&& 0xF0FF = 0xE09E ∧ x = fieldX w :=
  decode_eq_iff_of_one_operand (by simp [opcodeMap, rowsXF]) (fun _ _ => Instr.skp.inj) (fun _ => rfl)

theorem decode_eq_sknp_iff : ∀ (w : Word) (x : Reg), decode w = .sknp x ↔ w &&& 0xF0FF = 0xE0A1 ∧ x = fieldX w :=
  decode_eq_iff_of_one_operand (by simp [opcodeMap, rowsXF]) (fun _ _ => Instr.sknp.inj) (fun _ => rfl)

theorem decode_eq_rnd_iff : ∀ (w : Word) (x : Reg) (nn : Byte),
    decode w = .rnd x nn ↔ w &&& 0xF000 = 0xC000 ∧ x = fieldX w ∧ nn = fieldNN w :=
  decode_eq_iff_of_two_operands (by simp [opcodeMap, rowsXI]) (fun _ _ _ _ => Instr.rnd.inj) (fun _ _ => rfl)

namespace Machine

/-- The whole next state of a skip on a key that exists (R105, R106). -/
theorem skipOnKey_of_key (wanted : Bool) {x : Reg} {s : State} (h : (s.v[x]).toNat < 16) :
    skipOnKey wanted x s =
      .next { s with pc := if s.key.getLsbD (s.v[x]).toNat = wanted then s.pc + 4 else s.pc + 2 } := by
  rw [skipOnKey_completes wanted h, State.skipIf_eq]
  simp only [beq_iff_eq]

/-- Settles O15: each skip is one on the level of key `V[X]`, whose index is checked first. -/
theorem skipsOnKey : Obligations.SkipsOnKey :=
  ⟨decode_eq_skp_iff, decode_eq_sknp_iff, fun _ _ h => skipOnKey_of_key true h, fun _ _ h => skipOnKey_of_key false h,
    fun _ _ h => ⟨skipOnKey_faults true h, skipOnKey_faults false h⟩⟩

/-- Settles O18: the word's operands are its fields, and the random byte is masked by NN whatever it is. -/
theorem rndMasksTheRandomByte : Obligations.RndMasksTheRandomByte := ⟨decode_eq_rnd_iff, fun _ _ _ => rfl⟩

end Machine
end Sys2Proof
end

section
/-! The operations that write a flag, and ADD I: which words they are, and the whole next state (43_alu.md R120 to R125,
44_index_memory.md R131). -/
namespace Sys2Proof

theorem decode_eq_addReg_iff : ∀ (w : Word) (x y : Reg),
    decode w = .addReg x y ↔ w &&& 0xF00F = 0x8004 ∧ x = fieldX w ∧ y = fieldY w :=
  decode_eq_iff_of_two_operands (by simp [opcodeMap, rowsXY]) (fun _ _ _ _ => Instr.addReg.inj) (fun _ _ => rfl)

theorem decode_eq_sub_iff : ∀ (w : Word) (x y : Reg),
    decode w = .sub x y ↔ w &&& 0xF00F = 0x8005 ∧ x = fieldX w ∧ y = fieldY w :=
  decode_eq_iff_of_two_operands (by simp [opcodeMap, rowsXY]) (fun _ _ _ _ => Instr.sub.inj) (fun _ _ => rfl)

theorem decode_eq_subn_iff : ∀ (w : Word) (x y : Reg),
    decode w = .subn x y ↔ w &&& 0xF00F = 0x8007 ∧ x = fieldX w ∧ y = fieldY w :=
  decode_eq_iff_of_two_operands (by simp [opcodeMap, rowsXY]) (fun _ _ _ _ => Instr.subn.inj) (fun _ _ => rfl)

theorem decode_eq_shr_iff : ∀ (w : Word) (x y : Reg),
    decode w = .shr x y ↔ w &&& 0xF00F = 0x8006 ∧ x = fieldX w ∧ y = fieldY w :=
  decode_eq_iff_of_two_operands (by simp [opcodeMap, rowsXY]) (fun _ _ _ _ => Instr.shr.inj) (fun _ _ => rfl)

theorem decode_eq_shl_iff : ∀ (w : Word) (x y : Reg),
    decode w = .shl x y ↔ w &&& 0xF00F = 0x800E ∧ x = fieldX w ∧ y = fieldY w :=
  decode_eq_iff_of_two_operands (by simp [opcodeMap, rowsXY]) (fun _ _ _ _ => Instr.shl.inj) (fun _ _ => rfl)

theorem decode_eq_addIVx_iff : ∀ (w : Word) (x : Reg),
    decode w = .addIVx x ↔ w &&& 0xF0FF = 0xF01E ∧ x = fieldX w :=
  decode_eq_iff_of_one_operand (by simp [opcodeMap, rowsXF]) (fun _ _ => Instr.addIVx.inj) (fun _ => rfl)

namespace Machine

/-- The difference of two bytes modulo 256 (R121, R123). -/
theorem differenceByte_toNat (a b : Byte) : ((differenceByte a b).toNat : Int) = ((a.toNat : Int) - b.toNat) % 256 := by
  rw [differenceByte, BitVec.toNat_ofInt]
  omega

/-- The flag of a condition on numbers, as a byte. -/
theorem flagByte_decide (p : Prop) [Decidable p] : flagByte (decide p) = if p then 1 else 0 := by
  by_cases hp : p <;> simp [flagByte, hp]

/-- The whole next state of an instruction that writes a result and then the flag of a condition. -/
theorem setResultAndFlag_decide (s : State) (x : Reg) (b : Byte) (p : Prop) [Decidable p] :
    s.setResultAndFlag x b (decide p) =
      { s with v := (s.v.set x b).set 15 (if p then 1 else 0), pc := s.pc + 2 } := by
  rw [s.setResultAndFlag_eq, flagByte_decide]

/-- Settles O21: the sum without its carry, then the carry. -/
theorem addRegSetsTheCarry : Obligations.AddRegSetsTheCarry :=
  ⟨decode_eq_addReg_iff, fun x y s => ⟨sumByte s.v[x] s.v[y], sumByte_toNat _ _,
    congrArg Host.Outcome.next (setResultAndFlag_decide s x _ _)⟩⟩

/-- Settles O22: the difference, then NOT borrow, with the operands in either order. -/
theorem subtractionsSetNotBorrow : Obligations.SubtractionsSetNotBorrow :=
  ⟨decode_eq_sub_iff, decode_eq_subn_iff,
    fun x y s => ⟨differenceByte s.v[x] s.v[y], differenceByte_toNat _ _,
      congrArg Host.Outcome.next (setResultAndFlag_decide s x _ _)⟩,
    fun x y s => ⟨differenceByte s.v[y] s.v[x], differenceByte_toNat _ _,
      congrArg Host.Outcome.next (setResultAndFlag_decide s x _ _)⟩⟩

/-- Settles O23: half or double of `V[X]`, then the bit shifted out. -/
theorem shiftsSetTheBitShiftedOut : Obligations.ShiftsSetTheBitShiftedOut :=
  ⟨decode_eq_shr_iff, decode_eq_shl_iff,
    fun x y s => ⟨halfByte s.v[x], flagByte (bitOutRight s.v[x]), halfByte_toNat _, flagByte_bitOutRight_toNat _, rfl⟩,
    fun x y s => ⟨doubleByte s.v[x], flagByte (bitOutLeft s.v[x]), doubleByte_toNat _, flagByte_bitOutLeft_toNat _,
      rfl⟩⟩

/-- Settles O26: the sum of `I` and the extended byte, modulo 65536. -/
theorem addIWrapsAtSixteenBits : Obligations.AddIWrapsAtSixteenBits := by
  refine ⟨decode_eq_addIVx_iff, fun x s => ⟨s.i + s.v[x].zeroExtend 16, ?_, rfl⟩⟩
  have := s.v[x].isLt
  rw [BitVec.toNat_add, BitVec.toNat_setWidth]
  omega

/-! ## SUB as an addition, and SUB after ADD (43_alu.md section 3) -/

/-- The result of a flag writer, where its destination is not VF. -/
theorem State.setResultAndFlag_result (s : State) {x : Reg} (b : Byte) (f : Bool) (hx : x ≠ 15) :
    (s.setResultAndFlag x b f).v[x] = b := by
  have hne : (15 : Nat) ≠ x.val := fun h => hx (Fin.ext h.symm)
  have hflag : ((s.v.set x b).set 15 (flagByte f))[x] = (s.v.set x b)[x] := Vector.getElem_set_ne _ x.isLt hne
  exact hflag.trans (Vector.getElem_set_self x.isLt)

/-- A flag writer leaves every register but its destination and VF. -/
theorem State.setResultAndFlag_other (s : State) {x y : Reg} (b : Byte) (f : Bool) (hxy : x ≠ y) (hy : y ≠ 15) :
    (s.setResultAndFlag x b f).v[y] = s.v[y] := by
  have hframe : (Element.v y).same s (s.setResultAndFlag x b f) :=
    Element.same_setResultAndFlag (by simp [Ne.symm hxy, hy])
  exact hframe.symm

/-- NOT borrow of `a - b` is the carry of `a + (255 - b) + 1` (R125). -/
theorem flagByte_notBorrow_toNat (a b : Byte) :
    (flagByte (notBorrow a b)).toNat = (a.toNat + (255 - b.toNat) + 1) / 256 := by
  have := a.isLt
  have := b.isLt
  rw [notBorrow, flagByte_decide]
  split
  · show 1 = _; omega
  · show 0 = _; omega

/-- Settles O24: the two identities of the difference, and the restored sum. -/
theorem subtractIsAddOfTheComplement : Obligations.SubtractIsAddOfTheComplement := by
  refine ⟨fun x y s t hx h => ?_, fun x y s t u hxy hx hy ht hu => ?_⟩
  · obtain rfl := Host.Outcome.next.inj h
    rw [State.setResultAndFlag_vf, State.setResultAndFlag_result _ _ _ hx]
    refine ⟨?_, flagByte_notBorrow_toNat _ _⟩
    have := s.v[x].isLt
    have := s.v[y].isLt
    rw [State.reg_eq, State.reg_eq, differenceByte_eq, BitVec.toNat_sub]
    omega
  · obtain rfl := Host.Outcome.next.inj ht
    obtain rfl := Host.Outcome.next.inj hu
    rw [State.setResultAndFlag_result _ _ _ hx, sumByte_eq, differenceByte_eq]
    simp only [State.reg_eq, State.setResultAndFlag_result _ _ _ hx, State.setResultAndFlag_other _ _ _ hxy hy]
    exact BitVec.add_sub_cancel _ _

end Machine
end Sys2Proof
end

section
/-! DRW: which words it is, the whole next state, and the properties of its draws (45_display.md R142 to R144). -/
namespace Sys2Proof

theorem decode_eq_drw_iff (w : Word) (x y : Reg) (n : RowCount) :
    decode w = .drw x y n ↔ w &&& 0xF000 = 0xD000 ∧ x = fieldX w ∧ y = fieldY w ∧ n = fieldN w := by
  have hrow : ⟨0xF000, 0xD000, fun w => .drw (fieldX w) (fieldY w) (fieldN w)⟩ ∈ opcodeMap := by
    simp [opcodeMap, rowsXI]
  rw [decode_eq_iff_of_ctorIdx hrow (i := .drw x y n) rfl, Instr.drw.injEq, eq_comm (a := fieldX w),
    eq_comm (a := fieldY w), eq_comm (a := fieldN w)]

namespace Machine

/-! ## The sprite's cells -/

/-- Where the sprite lands depends on its bytes and on the coordinates modulo the display's size (R144(d)). -/
theorem spriteCovers_congr {s s' : State} {x y x' y' : Reg} {n : RowCount}
    (hbytes : ∀ r < n.val, s.mem.read (s.i.toNat + r) = s'.mem.read (s'.i.toNat + r))
    (hx : (s.v[x]).toNat % 64 = (s'.v[x']).toNat % 64) (hy : (s.v[y]).toNat % 32 = (s'.v[y']).toNat % 32)
    (px : Fin 64) (py : Fin 32) : s.spriteCovers x y n px py = s'.spriteCovers x' y' n px py := by
  have hcol : ∀ c, ((s.v[x]).toNat + c) % 64 = ((s'.v[x']).toNat + c) % 64 := fun c => by omega
  have hrow : ∀ r, ((s.v[y]).toNat + r) % 32 = ((s'.v[y']).toNat + r) % 32 := fun r => by omega
  rw [Bool.eq_iff_iff]
  simp only [State.spriteCovers, List.any_eq_true, List.mem_range, hcol, hrow]
  exact exists_congr fun r => and_congr_right fun hr => by rw [hbytes r hr]

/-- A sprite has a 1 bit iff it covers a cell. -/
theorem State.spriteBits_pos_iff (s : State) (x y : Reg) (n : RowCount) :
    0 < s.spriteBits n ↔ ∃ px py, s.spriteCovers x y n px py = true := by
  rw [s.spriteBits_eq x y n, List.length_pos_iff_exists_mem]
  simp only [s.spriteCovers_iff]
  exact ⟨fun ⟨p, hp⟩ => ⟨p.1, p.2, hp⟩, fun ⟨px, py, hp⟩ => ⟨(px, py), hp⟩⟩

/-- A sprite covers as many cells as it has 1 bits, since no two land on the same cell (R144(c)). -/
theorem State.card_spriteCovers (s : State) (x y : Reg) (n : RowCount) :
    ((Finset.univ : Finset (Fin 64 × Fin 32)).filter (fun p => s.spriteCovers x y n p.1 p.2 = true)).card =
      s.spriteBits n := by
  have hlen : (s.readAtI n.val).length ≤ 32 := by
    have := n.isLt
    rw [State.readAtI, Memory.readBytes_length]; omega
  rw [s.spriteBits_eq x y n, ← List.toFinset_card_of_nodup (spriteCells_nodup _ _ _ hlen)]
  refine congrArg Finset.card (Finset.ext fun p => ?_)
  rw [Finset.mem_filter_univ, List.mem_toFinset, s.spriteCovers_iff]

/-! ## One draw -/

theorem flagByte_eq_one_iff (b : Bool) : flagByte b = 1 ↔ b = true := by cases b <;> decide

/-- The whole next state of a draw that does not fault. -/
theorem exec_drw_completes (x y : Reg) {n : RowCount} {s : State} (h : n = 0 ∨ s.i.toNat + n.val - 1 ≤ 0xFFF) :
    exec (.drw x y n) s = .next { s with fb := (s.drawSprite x y n).fb,
                                         v := s.v.set 15 (flagByte (s.drawSprite x y n).hit), pc := s.pc + 2 } :=
  withDataRange_completes _ (h.imp_left (congrArg Fin.val))

/-- What a draw does to the display, to VF and to what a second draw reads. -/
structure DrawEffect (x y : Reg) (n : RowCount) (s t : State) : Prop where
  pixel : ∀ px py, Display.pixel t.fb px py = (Display.pixel s.fb px py ^^ s.spriteCovers x y n px py)
  flag_cases : t.v[15] = 0 ∨ t.v[15] = 1
  flag : t.v[15] = 1 ↔ ∃ px py, s.spriteCovers x y n px py = true ∧ Display.pixel s.fb px py = true
  reg : ∀ r : Reg, r ≠ 15 → t.v[r] = s.v[r]
  i : t.i = s.i
  mem : t.mem = s.mem

theorem drawEffect {x y : Reg} {n : RowCount} {s t : State} (hrange : n = 0 ∨ s.i.toNat + n.val - 1 ≤ 0xFFF)
    (h : exec (.drw x y n) s = .next t) : DrawEffect x y n s t := by
  rw [exec_drw_completes x y hrange] at h
  have hvf : t.v[15] = flagByte (s.drawSprite x y n).hit := by
    rw [← Host.Outcome.next.inj h]
    exact setReg_vf_flag s _
  obtain rfl := Host.Outcome.next.inj h
  obtain ⟨hpix, hhit⟩ := s.drawSprite_spec x y n
  exact {
    pixel := hpix
    flag_cases := by rw [hvf]; exact flagByte_cases _
    flag := by rw [hvf, flagByte_eq_one_iff]; exact hhit
    reg := fun r hr => (Element.same_setReg (e := .v r) (x := vf) fun he => hr (Element.v.inj he)).symm
    i := rfl
    mem := rfl }

/-- Settles O33: the completed draw is the one `drawSprite_spec` describes. -/
theorem drwTogglesTheSpriteCells : Obligations.DrwTogglesTheSpriteCells := by
  refine ⟨decode_eq_drw_iff, fun x y n s h => ?_,
    fun _ _ _ _ hn h => exec_of_fault (c := .dataAddressOutOfRange) (if_pos ⟨hn, h⟩)⟩
  obtain ⟨hpix, hhit⟩ := s.drawSprite_spec x y n
  exact ⟨_, _, exec_drw_completes x y h, rfl, hpix, flagByte_cases _, (flagByte_eq_one_iff _).trans hhit⟩

/-! ## Two draws -/

/-- The second of two equal draws covers the same cells, so it restores the display, and it collides where the sprite
covers a cell that was unlit before both. -/
theorem second_draw {x y : Reg} {n : RowCount} {s t u : State} (hx : x ≠ 15) (hy : y ≠ 15)
    (hrange : n = 0 ∨ s.i.toNat + n.val - 1 ≤ 0xFFF) (ht : exec (.drw x y n) s = .next t)
    (hu : exec (.drw x y n) t = .next u) :
    u.fb = s.fb ∧ (u.v[15] = 0 ∨ u.v[15] = 1) ∧
    (u.v[15] = 1 ↔ ∃ px py, s.spriteCovers x y n px py = true ∧ Display.pixel s.fb px py = false) := by
  have d := drawEffect hrange ht
  have d' := drawEffect (d.i ▸ hrange) hu
  have hcov : ∀ px py, t.spriteCovers x y n px py = s.spriteCovers x y n px py :=
    spriteCovers_congr (fun r _ => by rw [d.mem, d.i]) (by rw [d.reg x hx]) (by rw [d.reg y hy])
  refine ⟨Display.ext_pixel fun px py => ?_, d'.flag_cases, d'.flag.trans ?_⟩
  · rw [d'.pixel, d.pixel, hcov, Bool.xor_assoc, Bool.xor_self, Bool.xor_false]
  · refine exists_congr fun px => exists_congr fun py => ?_
    rw [hcov, d.pixel]
    refine and_congr_right fun hc => ?_
    rw [hc, Bool.xor_true, Bool.not_eq_true']

/-- Settles O34: the second draw undoes the first, and a blank display has no lit cell to collide with. -/
theorem drawingTwiceRestoresTheDisplay : Obligations.DrawingTwiceRestoresTheDisplay := by
  refine ⟨fun x y n s t u hx hy hrange ht hu => ?_, fun x y n s t hblank hrange ht => ?_⟩
  · obtain ⟨hfb, _, hflag⟩ := second_draw hx hy hrange ht hu
    exact ⟨hfb, hflag⟩
  · have d := drawEffect hrange ht
    refine ⟨d.flag_cases.resolve_right fun h1 => ?_, fun px py => ?_⟩
    · obtain ⟨px, py, _, hlit⟩ := d.flag.mp h1
      exact absurd ((hblank px py).symm.trans hlit) Bool.false_ne_true
    · rw [d.pixel, hblank, Bool.false_xor]

/-- Settles O55: the flag of the second draw by the cells it covers, the cells changed as those covered, and the display
after a draw by what its cells depend on. -/
theorem spriteDrawProperties : Obligations.SpriteDrawProperties := by
  refine ⟨fun x y n s t u hx hy hrange ht hu => ?_, fun x y n s t hrange ht => ?_,
    fun x y x' y' n s s' t t' hrange hrange' hfb hbytes hx hy ht ht' => ?_⟩
  · obtain ⟨-, hcases, hflag⟩ := second_draw hx hy hrange ht hu
    rw [s.spriteBits_pos_iff x y n, hflag]
    refine ⟨?_, fun hlit => hcases.resolve_right fun h1 => ?_⟩
    · rintro (hnone | ⟨px, py, hc, hun⟩)
      · have hcov : ¬ ∃ px py, s.spriteCovers x y n px py = true := by
          rw [← s.spriteBits_pos_iff x y n, hnone]
          exact Nat.lt_irrefl 0
        exact iff_of_false (fun ⟨px, py, hc, _⟩ => hcov ⟨px, py, hc⟩) hcov
      · exact iff_of_true ⟨px, py, hc, hun⟩ ⟨px, py, hc⟩
    · obtain ⟨px, py, hc, hun⟩ := hflag.mp h1
      exact absurd (hun.symm.trans (hlit px py hc)) Bool.false_ne_true
  · have d := drawEffect hrange ht
    rw [← s.card_spriteCovers x y n]
    refine congrArg Finset.card (Finset.filter_congr fun p _ => ?_)
    rw [d.pixel]
    cases Display.pixel s.fb p.1 p.2 <;> cases s.spriteCovers x y n p.1 p.2 <;> decide
  · have d := drawEffect hrange ht
    have d' := drawEffect hrange' ht'
    refine Display.ext_pixel fun px py => ?_
    rw [d.pixel, d'.pixel, hfb, spriteCovers_congr hbytes hx hy]

end Machine
end Sys2Proof
end

section
/-! The timers and the keys: the instructions that read and write them and the host's transactions on them
(46_timers_keys.md, 60_exceptions.md section 5). -/
namespace Sys2Proof

theorem decode_eq_ldVxDt_iff : ∀ (w : Word) (x : Reg),
    decode w = .ldVxDt x ↔ w &&& 0xF0FF = 0xF007 ∧ x = fieldX w :=
  decode_eq_iff_of_one_operand (by simp [opcodeMap, rowsXF]) (fun _ _ => Instr.ldVxDt.inj) (fun _ => rfl)

theorem decode_eq_ldVxK_iff : ∀ (w : Word) (x : Reg),
    decode w = .ldVxK x ↔ w &&& 0xF0FF = 0xF00A ∧ x = fieldX w :=
  decode_eq_iff_of_one_operand (by simp [opcodeMap, rowsXF]) (fun _ _ => Instr.ldVxK.inj) (fun _ => rfl)

theorem decode_eq_ldDtVx_iff : ∀ (w : Word) (x : Reg),
    decode w = .ldDtVx x ↔ w &&& 0xF0FF = 0xF015 ∧ x = fieldX w :=
  decode_eq_iff_of_one_operand (by simp [opcodeMap, rowsXF]) (fun _ _ => Instr.ldDtVx.inj) (fun _ => rfl)

theorem decode_eq_ldStVx_iff : ∀ (w : Word) (x : Reg),
    decode w = .ldStVx x ↔ w &&& 0xF0FF = 0xF018 ∧ x = fieldX w :=
  decode_eq_iff_of_one_operand (by simp [opcodeMap, rowsXF]) (fun _ _ => Instr.ldStVx.inj) (fun _ => rfl)

namespace Machine

/-! ## The timers -/

/-- A tick takes 1 from a timer, and nothing from one at 0 (R172). -/
theorem tickByte_toNat (b : Byte) : (tickByte b).toNat = b.toNat - 1 := by
  unfold tickByte
  split
  case isTrue hb => rw [hb]; rfl
  case isFalse hb =>
    have hpos : b.toNat ≠ 0 := fun h => hb (BitVec.eq_of_toNat_eq h)
    bv_omega

/-- Settles O52: both timers by the same event. -/
theorem tickDecrementsTheTimers : Obligations.TickDecrementsTheTimers :=
  fun s => ⟨tickByte s.dt, tickByte s.st, tickByte_toNat s.dt, tickByte_toNat s.st, rfl⟩

/-- DT after `n` ticks. -/
theorem run_ticks_dt (n : Nat) (s : State) : (run (List.replicate n .tick) s).dt.toNat = s.dt.toNat - n := by
  induction n generalizing s with
  | zero => rfl
  | succ n ih =>
    have htick : (run (List.replicate n .tick) s.tick).dt.toNat = (tickByte s.dt).toNat - n := ih s.tick
    rw [tickByte_toNat, Nat.sub_sub, Nat.add_comm] at htick
    exact htick

/-- Settles O35: the value read is DT, also after the ticks. -/
theorem ldVxDtReadsTheDelayTimer : Obligations.LdVxDtReadsTheDelayTimer := by
  refine ⟨decode_eq_ldVxDt_iff, fun _ _ => rfl, fun x s n => ⟨_, rfl, ?_⟩⟩
  have hread : ((run (List.replicate n .tick) s).v.set x (run (List.replicate n .tick) s).dt)[x] = _ :=
    Vector.getElem_set_self x.isLt
  exact (congrArg BitVec.toNat hread).trans (run_ticks_dt n s)

/-- Settles O36: `V[X]` is the byte written to the timer. -/
theorem timerWritesSetTheTimers : Obligations.TimerWritesSetTheTimers :=
  ⟨decode_eq_ldDtVx_iff, decode_eq_ldStVx_iff, fun _ _ => rfl, fun _ _ => rfl⟩

/-! ## The keys -/

/-- The number whose bit `k` says whether byte `k` of the list is nonzero. -/
def keyNumber (bs : List Byte) : Nat := bs.foldr (fun b n => 2 * n + if b = 0 then 0 else 1) 0

theorem keyBits_eq (bytes : Vector Byte 16) : keyBits bytes = BitVec.ofNat 16 (keyNumber bytes.toList) := rfl

theorem testBit_keyNumber (bs : List Byte) (k : Nat) (hk : k < bs.length) :
    (keyNumber bs).testBit k = true ↔ bs[k] ≠ 0 := by
  induction bs generalizing k with
  | nil => exact absurd hk (Nat.not_lt_zero k)
  | cons b bs ih =>
    have hcons : keyNumber (b :: bs) = 2 * keyNumber bs + if b = 0 then 0 else 1 := rfl
    cases k with
    | zero =>
      rw [hcons, Nat.testBit_zero, decide_eq_true_iff, List.getElem_cons_zero]
      split <;> simp_all
    | succ k =>
      have hhalf : (2 * keyNumber bs + if b = 0 then 0 else 1) / 2 = keyNumber bs := by split <;> omega
      rw [hcons, Nat.testBit_succ, hhalf, List.getElem_cons_succ]
      exact ih k (Nat.lt_of_succ_lt_succ hk)

/-- Settles O51: the transaction writes KEY alone, and the host's bytes give the bits of `keyNumber`. -/
theorem setKeysOverwritesTheKeys : Obligations.SetKeysOverwritesTheKeys := by
  refine ⟨fun _ _ => rfl, fun bytes k => ?_⟩
  have hbits : (keyBits bytes).getLsbD k.val = (keyNumber bytes.toList).testBit k.val := by
    rw [keyBits_eq, BitVec.getLsbD_ofNat, decide_eq_true k.isLt, Bool.true_and]
  rw [hbits, testBit_keyNumber _ _ (by simp), Vector.getElem_toList]
  rfl

/-- Settles O37: with no key down the machine waits, and the least pressed key is the one found. -/
theorem ldVxKWaitsForAKey : Obligations.LdVxKWaitsForAKey :=
  ⟨decode_eq_ldVxK_iff, fun x s h => exec_ldVxK_waits x ((s.key_eq_zero_iff).mpr h),
    fun x s _ hk hmin => exec_ldVxK_completes x (s.lowestKey_some hk hmin)⟩

end Machine
end Sys2Proof
end

section
/-! The host's transactions on a machine that is reset, halted, waiting for a key, or at an end of its run
(60_exceptions.md sections 2 and 5, 70_reset_and_hazards.md). -/
namespace Sys2Proof.Machine

/-! ## reset -/

/-- Settles O49: the reset state, field by field; the memory that lists nothing reads as the font and zeros. -/
theorem resetGivesTheListedValues : Obligations.ResetGivesTheListedValues := by
  rintro s t rfl
  refine ⟨fun x => Vector.getElem_replicate x.isLt, rfl, rfl, rfl, fun k => Vector.getElem_replicate k.isLt, rfl, rfl,
    fun _ => BitVec.getLsbD_zero, Display.pixel_blank, rfl, rfl, fun a ha => ?_, ?_⟩
  · exact List.getD_eq_default Config.font 0 ha
  · show (List.range 80).map (fun a => (Memory.read [] a).toNat) = _
    decide

/-! ## load -/

/-- A load, refused or not, changes memory alone (R192). -/
theorem transact_load_frame (bytes : List Byte) (s : State) :
    (transact (.load bytes) s).1 = { s with mem := (transact (.load bytes) s).1.mem } := by
  by_cases hlen : bytes.length ≤ 3584
  · rw [transact_load_of_fits hlen]; rfl
  · rw [transact_load_of_too_long (Nat.not_le.mp hlen)]

/-! ## The halted machine -/

/-- Only a reset clears FAULT (R162, R170). -/
theorem transact_fault_of_halted {a : Transaction} {s : State} (h : s.fault ≠ 0) (ha : a ≠ .reset) :
    (transact a s).1.fault = s.fault := by
  cases a with
  | reset => exact absurd rfl ha
  | load bytes => rw [transact_load_frame]
  | step => rw [transact_step (step_of_halted h)]
  | _ => rfl

theorem run_fault_of_halted {ts : List Transaction} {s : State} (h : s.fault ≠ 0) (hts : Transaction.reset ∉ ts) :
    (run ts s).fault = s.fault := by
  induction ts generalizing s with
  | nil => rfl
  | cons a ts ih =>
    obtain ⟨ha, hts⟩ := List.ne_and_not_mem_of_not_mem_cons hts
    have hfault := transact_fault_of_halted h (Ne.symm ha)
    exact (ih (hfault ▸ h) hts).trans hfault

/-- Settles O44: FAULT is kept along the run, and on a halted machine every other transaction does what it always
does. -/
theorem faultIsStickyUntilReset : Obligations.FaultIsStickyUntilReset := by
  refine ⟨fun ts s h hts => run_fault_of_halted h hts, fun _ => rfl, fun s h => ?_⟩
  obtain ⟨hdisplay, htimers, hfault⟩ := readsReturnTheStateUnchanged s
  refine ⟨transact_step (step_of_halted h), setKeysOverwritesTheKeys.1 s, tickDecrementsTheTimers s,
    fun bytes hlen => ?_, fun bytes hlen => transact_load_of_too_long hlen s, hdisplay, htimers, hfault⟩
  obtain ⟨t, -, hframe, ht, hin, hout⟩ := loadInstallsTheImage.1 bytes s hlen
  exact ⟨t, ht, hframe, hin, hout⟩

/-! ## The key-wait -/

/-- A waiting machine stays waiting where FAULT, `pc`, the keys and the word at `pc` stay. -/
theorem State.waitingForKey.congr {s t : State} (h : s.waitingForKey) (hf : t.fault = s.fault) (hpc : t.pc = s.pc)
    (hkey : t.key = s.key) (hhi : t.mem.read s.pc.toNat = s.mem.read s.pc.toNat)
    (hlo : t.mem.read (s.pc.toNat + 1) = s.mem.read (s.pc.toNat + 1)) : t.waitingForKey := by
  obtain ⟨hrun, hfetch, hnone, x, hx⟩ := h
  have hw : t.fetchWord = s.fetchWord := by rw [State.fetchWord, State.fetchWord, hpc, hhi, hlo]
  exact ⟨hf.trans hrun, hpc ▸ hfetch, hkey.trans hnone, x, hw ▸ hx⟩

/-- A step of a waiting machine changes nothing (R151). -/
theorem step_of_waiting {s : State} (h : s.waitingForKey) : step s = .next s := by
  obtain ⟨hrun, hfetch, hnone, x, hx⟩ := h
  rw [step_of_running hrun hfetch, hx]
  exact exec_ldVxK_waits x hnone

/-- With a key down the instruction completes and `pc` advances (R151). -/
theorem step_of_key_pressed {s : State} (h : s.waitingForKey) {k : BitVec 16} (hk : k ≠ 0) :
    ∃ t, step (s.setKeys k) = .next t ∧ t.pc = s.pc + 2 := by
  obtain ⟨hrun, hfetch, -, x, hx⟩ := h
  have hw : (s.setKeys k).fetchWord = s.fetchWord := rfl
  rcases (s.setKeys k).lowestKey_cases with ⟨hnone, _⟩ | ⟨j, _, _, _, hlow⟩
  · exact absurd hnone hk
  · have hstep : step (s.setKeys k) = exec (.ldVxK x) (s.setKeys k) := by
      rw [step_of_running (s := s.setKeys k) hrun hfetch, hw, hx]
    exact ⟨_, hstep.trans (exec_ldVxK_completes x hlow), rfl⟩

/-- Settles O38: each transaction but the three named leaves FAULT, `pc`, the keys and the word at `pc`. -/
theorem keyWaitEndsOnlyByKeysResetOrLoad : Obligations.KeyWaitEndsOnlyByKeysResetOrLoad := by
  intro s hs
  refine ⟨step_of_waiting hs, fun a => ?_, fun k hk => ⟨fun h => ?_, step_of_key_pressed hs hk⟩⟩
  · cases a with
    | reset => exact .inr (.inr (.inl rfl))
    | load bytes =>
      by_cases hhi : (transact (.load bytes) s).1.mem.read s.pc.toNat = s.mem.read s.pc.toNat
      · by_cases hlo : (transact (.load bytes) s).1.mem.read (s.pc.toNat + 1) = s.mem.read (s.pc.toNat + 1)
        · have hframe := transact_load_frame bytes s
          exact .inl (hs.congr (by rw [hframe]) (by rw [hframe]) (by rw [hframe]) hhi hlo)
        · exact .inr (.inr (.inr ⟨bytes, rfl, .inr hlo⟩))
      · exact .inr (.inr (.inr ⟨bytes, rfl, .inl hhi⟩))
    | step =>
      rw [transact_step (step_of_waiting hs)]
      exact .inl hs
    | setKeys k =>
      by_cases hk : k = 0
      · obtain ⟨_, _, hnone, _⟩ := id hs
        exact .inl (hs.congr rfl rfl (hk.trans hnone.symm) rfl rfl)
      · exact .inr (.inl ⟨k, hk, rfl⟩)
    | tick => exact .inl (hs.congr rfl rfl rfl rfl rfl)
    | readDisplay | readTimers | readFault => exact .inl hs
  · obtain ⟨_, _, hnone, _⟩ := h
    exact hk hnone

/-! ## The ends of a run -/

/-- Nothing differs but the timers and the keys. -/
def SameButTimersAndKeys (s t : State) : Prop := t = { s with dt := t.dt, st := t.st, key := t.key }

theorem SameButTimersAndKeys.trans {s t u : State} (h : SameButTimersAndKeys s t) (h' : SameButTimersAndKeys t u) :
    SameButTimersAndKeys s u := by
  unfold SameButTimersAndKeys at h h' ⊢
  rw [h] at h'
  exact h'

/-- Whether a run is at an end does not depend on the timers and the keys. -/
theorem RunEnd.reached_of_same {e : RunEnd} {s t : State} {rest : List Transaction} (h : e.reached s rest)
    (ht : SameButTimersAndKeys s t) : e.reached t rest := by
  cases e with
  | fault => exact (congrArg State.fault ht).trans_ne h
  | selfJump => rw [ht]; exact h
  | hostStops => exact h

theorem RunEnd.reached_tail {e : RunEnd} {s : State} {a : Transaction} {rest : List Transaction}
    (h : e.reached s (a :: rest)) : e.reached s rest := by
  cases e with
  | fault | selfJump => exact h
  | hostStops => exact fun hmem => h (List.mem_cons_of_mem a hmem)

/-- A step at an end changes nothing: the machine is halted, or it jumps to itself; at the third end no step comes. -/
theorem RunEnd.step_eq {e : RunEnd} {s : State} {rest : List Transaction} (h : e.reached s (.step :: rest)) :
    step s = .next s := by
  cases e with
  | fault => exact step_of_halted h
  | selfJump => exact step_of_atSelfJump h
  | hostStops => exact absurd List.mem_cons_self h

/-- One transaction at an end, a reset and a load apart: only the timers and the keys move, the timers by the tick. -/
theorem RunEnd.transact_frame {e : RunEnd} {s : State} {a : Transaction} {rest : List Transaction}
    (h : e.reached s (a :: rest)) (hreset : a ≠ .reset) (hload : ∀ bytes, a ≠ .load bytes) :
    SameButTimersAndKeys s (transact a s).1 ∧
    (transact a s).1.dt.toNat = s.dt.toNat - (if a = .tick then 1 else 0) ∧
    (transact a s).1.st.toNat = s.st.toNat - (if a = .tick then 1 else 0) := by
  cases a with
  | reset => exact absurd rfl hreset
  | load bytes => exact absurd rfl (hload bytes)
  | step =>
    rw [transact_step (RunEnd.step_eq h)]
    exact ⟨rfl, rfl, rfl⟩
  | tick => exact ⟨rfl, tickByte_toNat s.dt, tickByte_toNat s.st⟩
  | setKeys | readDisplay | readTimers | readFault => exact ⟨rfl, rfl, rfl⟩

/-- Settles O54: by induction on the transactions, each of which leaves the run at its end. -/
theorem atAnEndOnlyTimersAndKeysMove : Obligations.AtAnEndOnlyTimersAndKeysMove := by
  intro e s ts rest h hreset hload
  induction ts generalizing s with
  | nil => exact ⟨h, rfl, rfl, rfl⟩
  | cons a ts ih =>
    obtain ⟨ha, hts⟩ := List.ne_and_not_mem_of_not_mem_cons hreset
    obtain ⟨hframe, hdt, hst⟩ := RunEnd.transact_frame h (Ne.symm ha)
      fun bytes hb => hload bytes (hb ▸ List.mem_cons_self)
    have hend := RunEnd.reached_of_same (RunEnd.reached_tail h) hframe
    obtain ⟨hend', hframe', hdt', hst'⟩ := ih (transact a s).1 hend hts
      fun bytes hb => hload bytes (List.mem_cons_of_mem a hb)
    have hcount : (a :: ts).count .tick = ts.count .tick + if a = .tick then 1 else 0 := by
      rw [List.count_cons]; simp only [beq_iff_eq]
    refine ⟨hend', hframe.trans hframe', ?_, ?_⟩
    · rw [hcount, Nat.add_comm, ← Nat.sub_sub, ← hdt]
      exact hdt'
    · rw [hcount, Nat.add_comm, ← Nat.sub_sub, ← hst]
      exact hst'

end Sys2Proof.Machine
end
